-- ==== Sys2Proof/Word.lean ====
section
/-! DEFINITION. The value types of the engine (00_scope.md R12): every word is an unsigned 32-bit value, sub-keys and output
halves have 16 bits, bytes 8, the carry 1. All word arithmetic is that of `BitVec`, modulo 2^32 (R13). -/

namespace Sys2Proof

/-- u32 (R12). -/
abbrev Word := BitVec 32

/-- u16: sub-keys and 16-bit output halves (R12). -/
abbrev Half := BitVec 16

/-- u8 (R12). -/
abbrev Byte := BitVec 8

/-- One bit: the carry (R12, R23). -/
abbrev Bit := BitVec 1

/-- A register file of eight words, index 0 first (R11): X, C, G, and the constant table A. -/
abbrev Words := Vector Word 8

/-- A 16-byte register, byte 0 first (R11): S, KEY, DATA. -/
abbrev Bytes := Vector Byte 16

end Sys2Proof
end

