-- ==== Sys2Proof/Syntax.lean ====
section
/-! DEFINITION. The engine's instructions are its command words (30_encoding.md): one constructor per row of
opcode_table.json. -/

namespace Sys2Proof

/-- A command (30_encoding.md R81). `len` is the 5-bit LEN operand (R82). -/
inductive Instr where
  /-- RESET (43_control.md R190). -/
  | reset
  /-- SETUP_KEY n (41_key_schedule.md R140): `len` is the host's key length in bytes. -/
  | setupKey (len : BitVec 5)
  /-- NEXT_BLOCK (42_keystream.md R160). -/
  | nextBlock
  /-- CRYPT n (42_keystream.md R162): `len` is the number of DATA bytes to combine. -/
  | crypt (len : BitVec 5)
  deriving DecidableEq, Repr

/-- The three causes of an illegal command word (60_exceptions.md R214). ERR does not tell them apart. -/
inductive IllegalCause where
  /-- OPC is 0x0 or 0x5 to 0xF. -/
  | reservedOpcode
  /-- RSV is not zero. -/
  | reservedField
  /-- LEN is not allowed for the opcode. -/
  | lenNotAllowed
  deriving DecidableEq, Repr

/-- What the decoder reads from a command word: a command, or why there is none. -/
inductive Decoded where
  | instr (i : Instr)
  | illegal (cause : IllegalCause)
  deriving DecidableEq, Repr

end Sys2Proof
end

