-- ==== Sys2Proof/WellFormed.lean ====
section
/-! DEFINITION. Which terms of `Instr` stand for a legal command word (30_encoding.md R82, R84): the one operand limit that the
5-bit LEN field does not already impose is CRYPT's. -/

namespace Sys2Proof

/-- `CRYPT n` is legal only for n from 0 to 16 (R82, R84); SETUP_KEY takes every 5-bit LEN. -/
def Instr.wf : Instr → Bool
  | .reset => true
  | .setupKey _ => true
  | .nextBlock => true
  | .crypt len => decide (len.toNat ≤ 16)

end Sys2Proof
end

