-- ==== Sys2Proof/Decode.lean ====
section
/-! DEFINITION. The command word format CMDW (30_encoding.md R80 to R87): its fields, the legality function, the decoder, the
encoder. -/

namespace Sys2Proof

/-- OPC = v[3:0] (R80). -/
def opcField (v : Word) : BitVec 4 := v.extractLsb' 0 4

/-- LEN = v[8:4], unsigned (R80, R82). -/
def lenField (v : Word) : BitVec 5 := v.extractLsb' 4 5

/-- RSV = v[31:9] (R80, R83). -/
def rsvField (v : Word) : BitVec 23 := v.extractLsb' 9 23

/-- `legal(v)` (R84). -/
def legal (v : Word) : Bool :=
  if rsvField v ≠ 0 then false
  else if opcField v = 0x1 then decide (lenField v = 0)
  else if opcField v = 0x2 then true
  else if opcField v = 0x3 then decide (lenField v = 0)
  else if opcField v = 0x4 then decide ((lenField v).toNat ≤ 16)
  else false

/-- The decoder, total on command words (R81, R84, R86). A word with RSV zero, an opcode that is assigned and a LEN that the
opcode allows is that command; any other word is illegal, with a cause of R214. -/
def decode (v : Word) : Decoded :=
  if rsvField v ≠ 0 then .illegal .reservedField
  else if opcField v = 0x1 then
    if lenField v = 0 then .instr .reset else .illegal .lenNotAllowed
  else if opcField v = 0x2 then .instr (.setupKey (lenField v))
  else if opcField v = 0x3 then
    if lenField v = 0 then .instr .nextBlock else .illegal .lenNotAllowed
  else if opcField v = 0x4 then
    if (lenField v).toNat ≤ 16 then .instr (.crypt (lenField v)) else .illegal .lenNotAllowed
  else .illegal .reservedOpcode

/-- The OPC value of each command (R81). -/
def Instr.opcode : Instr → BitVec 4
  | .reset => 0x1
  | .setupKey _ => 0x2
  | .nextBlock => 0x3
  | .crypt _ => 0x4

/-- The LEN value of each command (R82, R87). -/
def Instr.len : Instr → BitVec 5
  | .reset => 0
  | .setupKey len => len
  | .nextBlock => 0
  | .crypt len => len

/-- A word from its three fields, RSV high (R80). -/
def cmdw (rsv : BitVec 23) (len : BitVec 5) (opc : BitVec 4) : Word := rsv ++ len ++ opc

/-- The command word of a command: OPC, LEN and RSV = 0 (R87). -/
def encode (i : Instr) : Word := cmdw 0 i.len i.opcode

/-- The decoder on a word numbered as opcode_table.json numbers it: every row has 32 bits, bit 0 the least significant bit
of the word written to CMD (R80). -/
def decodeTableWord (nbits w : Nat) : Option Instr :=
  if nbits ≤ 32 ∧ w < 2 ^ nbits then
    match decode (BitVec.ofNat 32 w) with
    | .instr i => some i
    | .illegal _ => none
  else none

end Sys2Proof
end

