-- ==== Sys2Proof/Machine/State.lean ====
section
/-! DEFINITION. The state of the machine: the engine's state tuple (10_state.md R20), and the host's own side of a run: the
accesses still to be performed and the values the reads so far returned (R32, 70_reset_and_hazards.md R255). -/

namespace Sys2Proof.Machine

/-- The engine state. "Nothing else is state" (10_state.md R20). -/
structure Engine where
  /-- The state words (R21). -/
  X : Words
  /-- The counter words (R22). -/
  C : Words
  /-- The carry bit (R23). -/
  b : Bit
  /-- The keystream buffer (R25). -/
  S : Bytes
  /-- The readiness flag (R26). -/
  ready : Bool
  /-- The result code of the last command (R27). -/
  ERR : BitVec 2
  /-- The key input register (R28). -/
  KEY : Bytes
  /-- The data register (R29). -/
  DATA : Bytes
  deriving DecidableEq, Repr

/-- The part of the state that the State Updater reads and writes (40_datapath.md R106). -/
structure Session where
  X : Words
  C : Words
  b : Bit
  deriving DecidableEq, Repr

/-- The sixteen registers of the window, by name (20_memory.md R50). -/
inductive WinReg where
  /-- CMD, offset 0x00. -/
  | cmd
  /-- STATUS, offset 0x04. -/
  | status
  /-- The two reserved offsets, 0x08 and 0x0C. -/
  | reserved (w : Fin 2)
  /-- KEY0 to KEY3. -/
  | key (w : Fin 4)
  /-- DATA0 to DATA3. -/
  | data (w : Fin 4)
  /-- KS0 to KS3. -/
  | ks (w : Fin 4)
  deriving DecidableEq, Repr

/-- One event at the engine's boundary: a host's read or write of `bytes` bytes at byte offset `off` of the window
(20_memory.md R55, R56), or the platform's assertion of the reset input (70_reset_and_hazards.md R240). A read may carry the
value the host expects (30_encoding.md R88, `RD reg, =imm32`). -/
inductive Access where
  | write (bytes off : Nat) (v : Word)
  | read (bytes off : Nat) (expect : Option Word)
  | resetInput
  deriving DecidableEq, Repr

/-- An access and the host that issues it (20_memory.md R62). -/
structure HostEvent where
  host : Nat
  access : Access
  deriving DecidableEq, Repr

/-- What one read returned (70_reset_and_hazards.md R255), to which host, and the value that host expected, if it gave one. -/
structure ReadResult where
  host : Nat
  off : Nat
  value : Word
  expect : Option Word
  deriving DecidableEq, Repr

/-- The machine: the engine, the accesses still to be performed, the next one first, and the reads' results so far, the
oldest first. The order in `pending` is the single total order in which the engine performs the accesses of all hosts
(20_memory.md R60, R62); nothing constrains it. -/
structure State where
  eng : Engine
  pending : List HostEvent
  reads : List ReadResult
  deriving DecidableEq, Repr

/-- The machine never stops: an error is a code in ERR and a next state (60_exceptions.md R210), and "the engine never halts
and has no final state" (70_reset_and_hazards.md R255). So there is no fault. -/
inductive Fault where
  deriving DecidableEq, Repr

/-- Why the model gives an access no meaning. -/
inductive Refusal where
  /-- Raised by `exec` for an instruction that has no meaning yet; no arm does. Safe. -/
  | notModelled (mnemonic : String)
  /-- Raised by a host access that is not 32 bits wide, is misaligned or lies outside the window: "A model refuses such an
  access" (20_memory.md R54). Safe: the hardware may do anything. -/
  | unsupportedAccess (bytes off : Nat)
  /-- Raised on a platform (Machine/Platform.lean) by an access to an address in no engine's window: "the platform decides what
  an access there reaches" (20_memory.md R68). Safe: the engine is not reached. -/
  | outsideWindows (addr : Nat)
  deriving DecidableEq, Repr

/-- What an instruction, an access or a step answers. -/
abbrev Result := Host.Outcome State Fault Refusal

/-- The engine after power-on reset and after RESET (10_state.md R35, 70_reset_and_hazards.md R240). -/
def Engine.reset : Engine where
  X := Vector.replicate 8 0
  C := Vector.replicate 8 0
  b := 0
  S := Vector.replicate 16 0
  ready := false
  ERR := 0
  KEY := Vector.replicate 16 0
  DATA := Vector.replicate 16 0

/-- The machine right after power-on: the engine reset (R240), no host access issued yet. -/
def State.reset : State where
  eng := Engine.reset
  pending := []
  reads := []

def Engine.session (e : Engine) : Session := ⟨e.X, e.C, e.b⟩

def Engine.withSession (e : Engine) (r : Session) : Engine := { e with X := r.X, C := r.C, b := r.b }

def Engine.withS (e : Engine) (v : Bytes) : Engine := { e with S := v }

def Engine.withReady (e : Engine) (v : Bool) : Engine := { e with ready := v }

def Engine.withERR (e : Engine) (v : BitVec 2) : Engine := { e with ERR := v }

def Engine.withKEY (e : Engine) (v : Bytes) : Engine := { e with KEY := v }

def Engine.withDATA (e : Engine) (v : Bytes) : Engine := { e with DATA := v }

def State.withEng (s : State) (e : Engine) : State := { s with eng := e }

def State.withPending (s : State) (p : List HostEvent) : State := { s with pending := p }

/-- Append one read's result (the oldest stands first). -/
def State.withRead (s : State) (r : ReadResult) : State := { s with reads := s.reads ++ [r] }

end Sys2Proof.Machine
end

