-- ==== Sys2Proof/Machine/Flags.lean ====
section
/-! DEFINITION. The flags: the error codes and the STATUS word (10_state.md R27, R31; 60_exceptions.md R211). -/

namespace Sys2Proof.Machine

/-- The three errors (60_exceptions.md R211). -/
inductive EngineError where
  /-- SETUP_KEY with LEN < 16 (R212). -/
  | invalidKeyLength
  /-- NEXT_BLOCK or CRYPT while not ready (R213). -/
  | notInitialized
  /-- A CMD write of a word that is not legal (R214). -/
  | illegalCommand
  deriving DecidableEq, Repr

/-- The code of an error in STATUS.ERR (R211). -/
def EngineError.code : EngineError → BitVec 2
  | .invalidKeyLength => 1
  | .notInitialized => 2
  | .illegalCommand => 3

/-- ERR after a command that succeeds (R211). -/
def errNone : BitVec 2 := 0

/-- The STATUS word: READY in bit 0, ERR in bits 2:1, zeros above (10_state.md R31, 20_memory.md R56). -/
def statusWord (e : Engine) : Word :=
  (e.ERR.setWidth 32 <<< 1) ||| (if e.ready then 1 else 0)

/-- The ERR field of a STATUS word, as a host takes it (R31). -/
def statusERR (v : Word) : BitVec 2 := v.extractLsb' 1 2

end Sys2Proof.Machine
end

