-- ==== Sys2Proof/Machine/Operands.lean ====
section
/-! DEFINITION. Operands: the LEN operand of a command (30_encoding.md R82) and the register an access names
(20_memory.md R50, R54). -/

namespace Sys2Proof.Machine

/-- `n = zext_32(v[8:4])`, 0 to 31, not sign-extended, scaled or shifted (30_encoding.md R82). -/
def lenOperand (len : BitVec 5) : Nat := len.toNat

/-- The register at a byte offset of the window, if the offset is a multiple of 4 within 0x00 to 0x3F
(20_memory.md R50, R54). -/
def WinReg.ofOffset : Nat → Option WinReg
  | 0x00 => some .cmd
  | 0x04 => some .status
  | 0x08 => some (.reserved 0)
  | 0x0C => some (.reserved 1)
  | 0x10 => some (.key 0)
  | 0x14 => some (.key 1)
  | 0x18 => some (.key 2)
  | 0x1C => some (.key 3)
  | 0x20 => some (.data 0)
  | 0x24 => some (.data 1)
  | 0x28 => some (.data 2)
  | 0x2C => some (.data 3)
  | 0x30 => some (.ks 0)
  | 0x34 => some (.ks 1)
  | 0x38 => some (.ks 2)
  | 0x3C => some (.ks 3)
  | _ => none

/-- The byte offset of a register (20_memory.md R50). -/
def WinReg.offset : WinReg → Nat
  | .cmd => 0x00
  | .status => 0x04
  | .reserved w => 0x08 + 4 * w
  | .key w => 0x10 + 4 * w
  | .data w => 0x20 + 4 * w
  | .ks w => 0x30 + 4 * w

/-- The register a supported access reaches; none where the width or the offset is not supported (20_memory.md R54). -/
def accessReg (bytes off : Nat) : Option WinReg :=
  if bytes = 4 then WinReg.ofOffset off else none

end Sys2Proof.Machine
end

