-- ==== Sys2Proof/Machine/Ops.lean ====
section
/-! DEFINITION. The shared operations: the operators of 00_scope.md R13, the byte lanes of the 16-byte registers
(20_memory.md R51, R52), raising an error (00_scope.md R14, 60_exceptions.md R210) and completing a command. -/

namespace Sys2Proof.Machine

/-- `lo16(a) = a[15:0]` (00_scope.md R13). -/
def lo16 (a : Word) : Half := a.extractLsb' 0 16

/-- `hi16(a) = a[31:16]` (R13). -/
def hi16 (a : Word) : Half := a.extractLsb' 16 16

/-- `h ++ l`, h in the high 16 bits (R13). -/
def catHalves (h l : Half) : Word := h ++ l

/-- `rotl(a, n)`, the circular left shift (R13); the engine uses n = 8 and n = 16 only (40_datapath.md R111). -/
def rotl (a : Word) (n : Nat) : Word := (a <<< n) ||| (a >>> (32 - n))

/-- `mul64(a, b)`, the exact 64-bit unsigned product (R13). -/
def mul64 (a b : Word) : BitVec 64 := a.setWidth 64 * b.setWidth 64

/-- Byte k of a word: bits [8k+7:8k] (20_memory.md R51). -/
def laneByte (v : Word) (k : Nat) : Byte := v.extractLsb' (8 * k) 8

/-- The little-endian word of four bytes, `b0 | b1 << 8 | b2 << 16 | b3 << 24` (20_memory.md R52, R56). -/
def wordOfBytes (b0 b1 b2 b3 : Byte) : Word :=
  b0.setWidth 32 ||| b1.setWidth 32 <<< 8 ||| b2.setWidth 32 <<< 16 ||| b3.setWidth 32 <<< 24

/-- Register w of a 16-byte array: bytes 4w to 4w+3 (20_memory.md R51, R52). -/
def getLanes (a : Bytes) (w : Fin 4) : Word :=
  wordOfBytes (a[4 * w.val]) (a[4 * w.val + 1]) (a[4 * w.val + 2]) (a[4 * w.val + 3])

/-- Write register w of a 16-byte array: byte j lies in register j div 4 at lane j mod 4, and only the bytes of register w
change (20_memory.md R51, R55). -/
def putLanes (a : Bytes) (w : Fin 4) (v : Word) : Bytes :=
  Vector.ofFn fun j : Fin 16 => if j.val / 4 = w.val then laneByte v (j.val % 4) else a[j]

/-- Eight zero words. -/
def zeroWords : Words := Vector.replicate 8 0

/-- Sixteen zero bytes. -/
def zeroBytes : Bytes := Vector.replicate 16 0

/-- RAISING AN ERROR, the engine's whole exception entry (00_scope.md R14, 60_exceptions.md R210, R218): ERR takes the code
and nothing else changes. There is no saved pc, no saved status, no mode and no handler, and so no return from it (R219). -/
def raise (err : EngineError) (s : State) : Result := .next (s.withEng (s.eng.withERR err.code))

/-- A command that succeeds leaves the engine `e` with ERR = 0 (10_state.md R27, 60_exceptions.md R211). -/
def succeed (e : Engine) (s : State) : Result := .next (s.withEng (e.withERR errNone))

/-- Go on from a next state; a fault or a refusal ends the run (used for sequences of accesses). -/
def andThen {α β : Type} (o : Host.Outcome α Fault Refusal) (f : α → Host.Outcome β Fault Refusal) :
    Host.Outcome β Fault Refusal :=
  match o with
  | .next a => f a
  | .fault r => .fault r
  | .refused r => .refused r

end Sys2Proof.Machine
end

