-- ==== Sys2Proof/Machine/Control.lean ====
section
/-! DEFINITION. The control command RESET and the illegal command (43_control.md). -/

namespace Sys2Proof.Machine

/-- RESET (R190): every state element of the engine is cleared; it cannot fail. -/
def execReset (s : State) : Result :=
  succeed { X := zeroWords, C := zeroWords, b := 0, S := zeroBytes, ready := false, ERR := errNone, KEY := zeroBytes,
            DATA := zeroBytes } s

/-- An illegal command (R191): IllegalCommand, and no other state changes. -/
def execIllegal (s : State) : Result := raise .illegalCommand s

end Sys2Proof.Machine
end

