-- ==== Sys2Proof/Machine/Datapath.lean ====
section
/-! DEFINITION. The datapath units (40_datapath.md): counter adder, g-function, next-state network, block extractor, XOR
combiner. None of them is a command. -/

namespace Sys2Proof.Machine

/-- The counter constants A[0..7] (R100). -/
def counterConst : Words :=
  #v[0x4D34D34D, 0xD34D34D3, 0x34D34D34, 0x4D34D34D, 0xD34D34D3, 0x34D34D34, 0x4D34D34D, 0xD34D34D3]

/-- `zext_34(c) + zext_34(a) + zext_34(carry)`, exact (R101). -/
def wideSum (c a : Word) (carry : Bit) : BitVec 34 := c.setWidth 34 + a.setWidth 34 + carry.setWidth 34

/-- The carry that enters word i of the chain: b for word 0, and the carry out of word i-1 after it; for i = 8 it is the carry
out of the chain (R101). -/
def carryInto (C : Words) (b : Bit) : Nat → Bit
  | 0 => b
  | i + 1 => (wideSum (C.getD i 0) (counterConst.getD i 0) (carryInto C b i)).extractLsb' 32 1

/-- CounterUpdate (R101): `C'[i] = t[31:0]` for i in 0..7, and the carry out of word 7. -/
def counterUpdate (C : Words) (b : Bit) : Words × Bit :=
  (Vector.ofFn fun i : Fin 8 => (wideSum C[i] counterConst[i] (carryInto C b i.val)).extractLsb' 0 32,
    carryInto C b 8)

/-- The g-function: square the sum, XOR the halves of the 64-bit square (R103). -/
def gFunction (u v : Word) : Word :=
  let s := u + v
  let sq := mul64 s s
  sq.extractLsb' 0 32 ^^^ sq.extractLsb' 32 32

/-- NextState (R105). -/
def nextState (G : Words) : Words :=
  #v[G[0] + rotl G[7] 16 + rotl G[6] 16,
     G[1] + rotl G[0] 8 + G[7],
     G[2] + rotl G[1] 16 + rotl G[0] 16,
     G[3] + rotl G[2] 8 + G[1],
     G[4] + rotl G[3] 16 + rotl G[2] 16,
     G[5] + rotl G[4] 8 + G[3],
     G[6] + rotl G[5] 16 + rotl G[4] 16,
     G[7] + rotl G[6] 8 + G[5]]

/-- The g outputs of one step, from the X before the step and the new counters (R103, R106; 70_reset_and_hazards.md R244). -/
def gOutputs (X C' : Words) : Words := Vector.ofFn fun i : Fin 8 => gFunction X[i] C'[i]

/-- Step, the State Updater: counters, then g, then the recombination (R106). -/
def updateStep (r : Session) : Session :=
  let cb := counterUpdate r.C r.b
  { X := nextState (gOutputs r.X cb.1), C := cb.1, b := cb.2 }

/-- Extract: eight 16-bit combinations of the state words (R107), the S[6..7] lane with hi16(X2) (R109). -/
def extract (X : Words) : Vector Half 8 :=
  #v[lo16 X[0] ^^^ hi16 X[5],
     hi16 X[0] ^^^ lo16 X[3],
     lo16 X[2] ^^^ hi16 X[7],
     hi16 X[2] ^^^ lo16 X[5],
     lo16 X[4] ^^^ hi16 X[1],
     hi16 X[4] ^^^ lo16 X[7],
     lo16 X[6] ^^^ hi16 X[3],
     hi16 X[6] ^^^ lo16 X[1]]

/-- Byte k of a half, low byte first (R108). -/
def halfByte (h : Half) (k : Nat) : Byte := h.extractLsb' (8 * k) 8

/-- Block: byte 2m is the low byte of combination m, byte 2m+1 the high byte (R108). -/
def block (X : Words) : Bytes :=
  Vector.ofFn fun j : Fin 16 => halfByte ((extract X)[j.val / 2]) (j.val % 2)

/-- XorCombine: lanes 0 to n-1 are combined, the others unchanged (R110). -/
def xorCombine (D S : Bytes) (n : Nat) : Bytes :=
  Vector.ofFn fun j : Fin 16 => if j.val < n then D[j] ^^^ S[j] else D[j]

/-- Draw one block: one step, then extract from the NEW X (42_keystream.md R160, 70_reset_and_hazards.md R246). -/
def drawBlock (e : Engine) : Engine :=
  let r := updateStep e.session
  (e.withSession r).withS (block r.X)

end Sys2Proof.Machine
end

