-- ==== Sys2Proof/Machine/KeySchedule.lean ====
section
/-! DEFINITION. The key-schedule initializer and the command SETUP_KEY (41_key_schedule.md). -/

namespace Sys2Proof.Machine

/-- Sub-key K[i], the index taken modulo 8: low byte first (R142). -/
def subKey (KEY : Bytes) (i : Nat) : Half :=
  KEY[2 * (i % 8)].setWidth 16 ||| KEY[2 * (i % 8) + 1].setWidth 16 <<< 8

/-- KeyLoad, the X half (R142). -/
def keyLoadX (KEY : Bytes) : Words :=
  Vector.ofFn fun i : Fin 8 =>
    if i.val % 2 = 0 then catHalves (subKey KEY (i.val + 1)) (subKey KEY i.val)
    else catHalves (subKey KEY (i.val + 5)) (subKey KEY (i.val + 4))

/-- KeyLoad, the C half (R142). -/
def keyLoadC (KEY : Bytes) : Words :=
  Vector.ofFn fun i : Fin 8 =>
    if i.val % 2 = 0 then catHalves (subKey KEY (i.val + 4)) (subKey KEY (i.val + 5))
    else catHalves (subKey KEY i.val) (subKey KEY (i.val + 1))

/-- The loaded session, with the carry 0 that Iterate4 starts from (R142, R146). -/
def keyLoad (KEY : Bytes) : Session := { X := keyLoadX KEY, C := keyLoadC KEY, b := 0 }

/-- k steps of the State Updater with no extraction. -/
def iterateStep : Nat → Session → Session
  | 0, r => r
  | k + 1, r => iterateStep k (updateStep r)

/-- Couple: `C'[i] = C[i] ^ X[(i+4) mod 8]`; X is read only (R144). -/
def couple (X C : Words) : Words :=
  Vector.ofFn fun i : Fin 8 => C[i] ^^^ X[(i.val + 4) % 8]

/-- The key schedule: load, four steps (R143), couple (R144, 70_reset_and_hazards.md R245). -/
def keySchedule (KEY : Bytes) : Session :=
  let r := iterateStep 4 (keyLoad KEY)
  { X := r.X, C := couple r.X r.C, b := r.b }

/-- SETUP_KEY n (R140): the length check (R141), then the schedule; ready is set and KEY cleared (R145). -/
def execSetupKey (len : BitVec 5) (s : State) : Result :=
  if lenOperand len < 16 then raise .invalidKeyLength s
  else succeed (((s.eng.withSession (keySchedule s.eng.KEY)).withReady true).withKEY zeroBytes) s

end Sys2Proof.Machine
end

