-- ==== Sys2Proof/Machine/Keystream.lean ====
section
/-! DEFINITION. The keystream commands NEXT_BLOCK and CRYPT (42_keystream.md). -/

namespace Sys2Proof.Machine

/-- NEXT_BLOCK (R160): readiness, then one step and the block of the new X in S. -/
def execNextBlock (s : State) : Result :=
  if s.eng.ready then succeed (drawBlock s.eng) s else raise .notInitialized s

/-- CRYPT n (R162): readiness, also for n = 0; n = 0 draws no block; otherwise one fresh block, combined into DATA[0..n-1].
The first check is R192's legality check: no command word decodes to CRYPT n with n > 16 (30_encoding.md R84, R85), and the
term is an illegal command here too. -/
def execCrypt (len : BitVec 5) (s : State) : Result :=
  if 16 < lenOperand len then raise .illegalCommand s
  else if s.eng.ready then
    if lenOperand len = 0 then succeed s.eng s
    else
      let e := drawBlock s.eng
      succeed (e.withDATA (xorCombine e.DATA e.S (lenOperand len))) s
  else raise .notInitialized s

end Sys2Proof.Machine
end

