-- ==== Sys2Proof/Machine/Dispatch.lean ====
section
/-! DEFINITION. The dispatch of a decoded command to its meaning (43_control.md R192). -/

namespace Sys2Proof.Machine

/-- One arm per command (43_control.md R192). -/
def exec (i : Instr) (s : State) : Host.Outcome State Fault Refusal :=
  match i with
  | .reset => Sys2Proof.Machine.execReset s
  | .setupKey len => Sys2Proof.Machine.execSetupKey len s
  | .nextBlock => Sys2Proof.Machine.execNextBlock s
  | .crypt len => Sys2Proof.Machine.execCrypt len s

end Sys2Proof.Machine
end

