-- ==== Sys2Proof/Machine/Window.lean ====
section
/-! DEFINITION. The register window: host writes, host reads, and one event at the engine's boundary (20_memory.md). -/

namespace Sys2Proof.Machine

/-- Execute(v), the engine's whole reaction to a write of v to CMD: legality first, then the command (43_control.md R192). -/
def execute (v : Word) (s : State) : Result :=
  match decode v with
  | .instr i => exec i s
  | .illegal _ => execIllegal s

/-- RegWrite (20_memory.md R55): CMD runs a command, KEYw and DATAw take the word's four bytes, a write to any other register
has no effect (R53). -/
def regWrite (r : WinReg) (v : Word) (s : State) : Result :=
  match r with
  | .cmd => execute v s
  | .status => .next s
  | .reserved _ => .next s
  | .key w => .next (s.withEng (s.eng.withKEY (putLanes s.eng.KEY w v)))
  | .data w => .next (s.withEng (s.eng.withDATA (putLanes s.eng.DATA w v)))
  | .ks _ => .next s

/-- RegRead (20_memory.md R56): STATUS, DATAw and KSw show state, every other register reads zero (R53). -/
def regRead (r : WinReg) (e : Engine) : Word :=
  match r with
  | .cmd => 0
  | .status => statusWord e
  | .reserved _ => 0
  | .key _ => 0
  | .data w => getLanes e.DATA w
  | .ks w => getLanes e.S w

/-- One event, performed whole (20_memory.md R60). A read changes no engine state (R56); the value it returns goes to the host.
An access that is not supported is refused (R54). The reset input puts the engine in its reset state
(70_reset_and_hazards.md R240). -/
def performEvent (ev : HostEvent) (s : State) : Result :=
  match ev.access with
  | .write bytes off v =>
    match accessReg bytes off with
    | some r => regWrite r v s
    | none => .refused (.unsupportedAccess bytes off)
  | .read bytes off expect =>
    match accessReg bytes off with
    | some r => .next (s.withRead ⟨ev.host, off, regRead r s.eng, expect⟩)
    | none => .refused (.unsupportedAccess bytes off)
  | .resetInput => .next (s.withEng Engine.reset)

/-- A sequence of accesses, performed one after another (20_memory.md R61). -/
def performAll : List HostEvent → State → Result
  | [], s => .next s
  | ev :: evs, s => andThen (performEvent ev s) (performAll evs)

/-- The event by which host 0 writes a command word to CMD. -/
def commandEvent (v : Word) : HostEvent := ⟨0, .write 4 WinReg.cmd.offset v⟩

end Sys2Proof.Machine
end

