-- ==== Sys2Proof/Machine/Step.lean ====
section
/-! DEFINITION. One step of the machine: the next pending host access is performed (20_memory.md R60). -/

namespace Sys2Proof.Machine

/-- Perform the next pending access; with none pending the engine keeps its state (60_exceptions.md R227). -/
def step (s : State) : Host.Outcome State Fault Refusal :=
  match s.pending with
  | [] => .next s
  | ev :: rest => performEvent ev (s.withPending rest)

/-- s with a CMD write of the command word w as its next access. Every command word has 32 bits (30_encoding.md R86). -/
def State.withFetchWord (s : State) (nbits w : Nat) : State :=
  s.withPending (commandEvent (BitVec.ofNat 32 (w % 2 ^ nbits)) :: s.pending)

end Sys2Proof.Machine
end

