-- ==== Sys2Proof/Machine/HostAsm.lean ====
section
/-! DEFINITION. The host assembly language: its lines, and the accesses each expands to (30_encoding.md R88 to R90). -/

namespace Sys2Proof.Machine

/-- A line of a host program (R88, R89, R90). Registers stand as byte offsets; the text form is in Machine/AsmText.lean. -/
inductive AsmLine where
  /-- `WR <reg>, <imm32>`. -/
  | wr (off : Nat) (v : Word)
  /-- `RD <reg>`. -/
  | rd (off : Nat)
  /-- `RD <reg>, =<imm32>`. -/
  | rdCheck (off : Nat) (v : Word)
  /-- `RESET`. -/
  | reset
  /-- `SETUP_KEY <n>`. -/
  | setupKey (n : Nat)
  /-- `NEXT_BLOCK`. -/
  | nextBlock
  /-- `CRYPT <n>`. -/
  | crypt (n : Nat)
  /-- `LDKEY b0, ..., b15`. -/
  | ldKey (a : Bytes)
  /-- `LDDATA b0, ..., b15`. -/
  | ldData (a : Bytes)
  /-- `RDKS`. -/
  | rdKs
  /-- `RDKS =b0, ..., b15`. -/
  | rdKsCheck (a : Bytes)
  /-- `RDDATA`. -/
  | rdData
  /-- `RDDATA =b0, ..., b15`. -/
  | rdDataCheck (a : Bytes)
  /-- `RDSTATUS =<imm32>`. -/
  | rdStatusCheck (v : Word)
  deriving DecidableEq, Repr

/-- The single write of a command mnemonic (R89). -/
def asmCommand (v : Word) : List Access := [.write 4 WinReg.cmd.offset v]

/-- Four accesses, one for each register of a 16-byte array, register 0 first (R90). -/
def asmFour (f : Fin 4 → Access) : List Access := [f 0, f 1, f 2, f 3]

/-- The accesses a line expands to; none where the assembler refuses the line, `SETUP_KEY n` with n > 31 and `CRYPT n` with
n > 16 (R88, R89, R90). -/
def AsmLine.expand : AsmLine → Option (List Access)
  | .wr off v => some [.write 4 off v]
  | .rd off => some [.read 4 off none]
  | .rdCheck off v => some [.read 4 off (some v)]
  | .reset => some (asmCommand 0x00000001)
  | .setupKey n => if n ≤ 31 then some (asmCommand (0x00000002 ||| BitVec.ofNat 32 n <<< 4)) else none
  | .nextBlock => some (asmCommand 0x00000003)
  | .crypt n => if n ≤ 16 then some (asmCommand (0x00000004 ||| BitVec.ofNat 32 n <<< 4)) else none
  | .ldKey a => some (asmFour fun w => .write 4 (WinReg.key w).offset (getLanes a w))
  | .ldData a => some (asmFour fun w => .write 4 (WinReg.data w).offset (getLanes a w))
  | .rdKs => some (asmFour fun w => .read 4 (WinReg.ks w).offset none)
  | .rdKsCheck a => some (asmFour fun w => .read 4 (WinReg.ks w).offset (some (getLanes a w)))
  | .rdData => some (asmFour fun w => .read 4 (WinReg.data w).offset none)
  | .rdDataCheck a => some (asmFour fun w => .read 4 (WinReg.data w).offset (some (getLanes a w)))
  | .rdStatusCheck v => some [.read 4 WinReg.status.offset (some v)]

/-- A program assembles when every line does (R88, R89). -/
def assemble : List AsmLine → Option (List Access)
  | [] => some []
  | l :: ls =>
    match l.expand, assemble ls with
    | some as, some rest => some (as ++ rest)
    | _, _ => none

/-- The state in which host h has the accesses still before it, after those already pending: the host's access sequence is the
program (10_state.md R32, 70_reset_and_hazards.md R255). -/
def State.load (s : State) (h : Nat) (accesses : List Access) : State :=
  s.withPending (s.pending ++ accesses.map fun a => ⟨h, a⟩)

end Sys2Proof.Machine
end

