-- ==== Sys2Proof/Machine/AsmText.lean ====
section
/-! DEFINITION. The text of host assembly lines (30_encoding.md R88 to R90), as a list of characters. The spelling of the
byte and LEN literals follows the programs of 95_test_vectors.md section 6 (log 5). -/

namespace Sys2Proof.Machine

def isBlank (c : Char) : Bool := c == ' ' || c == '\t' || c == '\r'

/-- Without the blanks at both ends. -/
def trimBlanks (cs : List Char) : List Char := ((cs.dropWhile isBlank).reverse.dropWhile isBlank).reverse

/-- Split at every d; there is one more piece than there are d's. -/
def splitAtChar (d : Char) : List Char → List (List Char)
  | [] => [[]]
  | c :: cs =>
    if c = d then [] :: splitAtChar d cs
    else
      match splitAtChar d cs with
      | [] => [[c]]
      | p :: ps => (c :: p) :: ps

/-- Comments start with `;` (R88). -/
def stripComment (cs : List Char) : List Char := cs.takeWhile (· != ';')

/-- The digits of the imm32 and byte literals, each at the place of its value (R88, R90); a decimal literal uses the first ten. -/
def digitRow : List Char := "0123456789ABCDEF".toList

/-- The value of a digit; a lower-case letter counts as its capital (log 5). -/
def hexDigit (c : Char) : Option Nat := digitRow.findIdx? (· == c.toUpper)

/-- The number of a digit string in the given base, after the digits already read. -/
def digitsNat (base : Nat) : Nat → List Char → Option Nat
  | acc, [] => some acc
  | acc, c :: cs =>
    match hexDigit c with
    | some d => if d < base then digitsNat base (base * acc + d) cs else none
    | none => none

/-- `0x` and at most 8 hexadecimal digits (R88). -/
def hexLiteral : List Char → Option Nat
  | '0' :: 'x' :: ds => if 1 ≤ ds.length ∧ ds.length ≤ 8 then digitsNat 16 0 ds else none
  | _ => none

/-- A decimal LEN literal (log 5). -/
def decLiteral (ds : List Char) : Option Nat := if ds = [] then none else digitsNat 10 0 ds

/-- A byte literal: one or two hexadecimal digits (log 5). -/
def byteLiteral (ds : List Char) : Option Byte :=
  if 1 ≤ ds.length ∧ ds.length ≤ 2 then (digitsNat 16 0 ds).map (BitVec.ofNat 8) else none

def wordLiteral (cs : List Char) : Option Word := (hexLiteral cs).map (BitVec.ofNat 32)

/-- Apply f to every piece; none if any fails. -/
def allSome {α β : Type} (f : α → Option β) : List α → Option (List β)
  | [] => some []
  | a :: as =>
    match f a, allSome f as with
    | some b, some bs => some (b :: bs)
    | _, _ => none

/-- A byte list holds exactly 16 byte literals (R90). -/
def byteList (cs : List Char) : Option Bytes :=
  match allSome (fun p => byteLiteral (trimBlanks p)) (splitAtChar ',' cs) with
  | some bs => if h : bs.length = 16 then some ⟨bs.toArray, by simpa using h⟩ else none
  | none => none

/-- The register names of the map (20_memory.md R50). -/
def regNames : List (String × WinReg) :=
  [("CMD", .cmd), ("STATUS", .status), ("KEY0", .key 0), ("KEY1", .key 1), ("KEY2", .key 2), ("KEY3", .key 3),
   ("DATA0", .data 0), ("DATA1", .data 1), ("DATA2", .data 2), ("DATA3", .data 3),
   ("KS0", .ks 0), ("KS1", .ks 1), ("KS2", .ks 2), ("KS3", .ks 3)]

/-- A register: a name of the map, or a byte offset written in hex (R88). -/
def regOffset (cs : List Char) : Option Nat :=
  match regNames.find? fun p => p.1 == String.ofList cs with
  | some p => some p.2.offset
  | none => hexLiteral cs

/-- The value after `=`, if there is one (R88, R90). -/
def checked {α : Type} (f : List Char → Option α) : List Char → Option α
  | '=' :: cs => f (trimBlanks cs)
  | _ => none

/-- `WR` operands. -/
def parseWr (ops : List (List Char)) : Option AsmLine :=
  match ops with
  | [r, v] =>
    match regOffset r, wordLiteral v with
    | some off, some w => some (.wr off w)
    | _, _ => none
  | _ => none

/-- `RD` operands, with or without an expected value. -/
def parseRd (ops : List (List Char)) : Option AsmLine :=
  match ops with
  | [r] => (regOffset r).map .rd
  | [r, v] =>
    match regOffset r, checked wordLiteral v with
    | some off, some w => some (.rdCheck off w)
    | _, _ => none
  | _ => none

/-- One line that is neither blank nor a comment: the mnemonic up to the first blank, then its operands. An unknown mnemonic,
a missing operand and an operand that is one too many are refused (R89). -/
def parseStatement (cs : List Char) : Option AsmLine :=
  let word := String.ofList (cs.takeWhile fun c => !isBlank c)
  let rest := trimBlanks (cs.dropWhile fun c => !isBlank c)
  let ops := (splitAtChar ',' rest).map trimBlanks
  if word = "WR" then parseWr ops
  else if word = "RD" then parseRd ops
  else if word = "RESET" then (if rest = [] then some .reset else none)
  else if word = "SETUP_KEY" then (decLiteral rest).map .setupKey
  else if word = "NEXT_BLOCK" then (if rest = [] then some .nextBlock else none)
  else if word = "CRYPT" then (decLiteral rest).map .crypt
  else if word = "LDKEY" then (byteList rest).map .ldKey
  else if word = "LDDATA" then (byteList rest).map .ldData
  else if word = "RDKS" then (if rest = [] then some .rdKs else (checked byteList rest).map .rdKsCheck)
  else if word = "RDDATA" then (if rest = [] then some .rdData else (checked byteList rest).map .rdDataCheck)
  else if word = "RDSTATUS" then (checked wordLiteral rest).map .rdStatusCheck
  else none

/-- The lines of a program text; blank lines and comments stand for nothing (R88). -/
def parseLines : List (List Char) → Option (List AsmLine)
  | [] => some []
  | l :: ls =>
    let cs := trimBlanks (stripComment l)
    if cs = [] then parseLines ls
    else
      match parseStatement cs, parseLines ls with
      | some a, some rest => some (a :: rest)
      | _, _ => none

/-- The accesses of a program text; none where the assembler refuses it (R88, R89, R90). -/
def assembleText (text : List Char) : Option (List Access) :=
  match parseLines (splitAtChar '\n' text) with
  | some ls => assemble ls
  | none => none

end Sys2Proof.Machine
end

