-- ==== Sys2Proof/Machine/HostProtocol.lean ====
section
/-! DEFINITION. The host protocols that realise the source's software calls (42_keystream.md R170 to R173), as sequences of
accesses that no other host interrupts. Every access is one of Machine/Window.lean's. -/

namespace Sys2Proof.Machine

/-- A command mnemonic is one write of its word to CMD (30_encoding.md R89). -/
def hostCommand (i : Instr) (s : State) : Result := regWrite .cmd (encode i) s

/-- Four register writes, register 0 first: LDKEY with `reg = .key`, LDDATA with `reg = .data` (30_encoding.md R90). -/
def writeArray (reg : Fin 4 → WinReg) (a : Bytes) (s : State) : Result :=
  andThen (regWrite (reg 0) (getLanes a 0) s) fun s1 =>
  andThen (regWrite (reg 1) (getLanes a 1) s1) fun s2 =>
  andThen (regWrite (reg 2) (getLanes a 2) s2) fun s3 =>
  regWrite (reg 3) (getLanes a 3) s3

/-- Four register reads as 16 bytes: RDDATA with `reg = .data`, RDKS with `reg = .ks` (30_encoding.md R90). Reads change no
engine state (20_memory.md R56). -/
def readArray (reg : Fin 4 → WinReg) (e : Engine) : Bytes :=
  Vector.ofFn fun j : Fin 16 => laneByte (regRead (reg ⟨j.val / 4, by omega⟩) e) (j.val % 4)

/-- The ERR field of a read of STATUS. -/
def readERR (s : State) : BitVec 2 := statusERR (regRead .status s.eng)

/-- The first 16 bytes of a key, a short key padded with zeros (R170). -/
def padKey (key : List Byte) : Bytes := Vector.ofFn fun j : Fin 16 => key.getD j.val 0

/-- Protocol `setupKey(key)`: LDKEY, SETUP_KEY min(L, 31), RD STATUS (R170). It answers ERR and the state. -/
def hostSetupKey (key : List Byte) (s : State) : Host.Outcome (BitVec 2 × State) Fault Refusal :=
  andThen (writeArray .key (padKey key) s) fun s1 =>
  andThen (hostCommand (.setupKey (BitVec.ofNat 5 (min key.length 31))) s1) fun s2 =>
  .next (readERR s2, s2)

/-- The DATA bytes for one chunk; the bytes after the chunk's end have any value, `fill` (R171, 93_implementation_defined.md
I13). -/
def chunkBytes (fill : Nat → Byte) (chunk : List Byte) : Bytes :=
  Vector.ofFn fun j : Fin 16 => chunk.getD j.val (fill j.val)

/-- One chunk of `crypt`: LDDATA, CRYPT n, STATUS, and RDDATA where STATUS.ERR is 0 (R171). It answers ERR, the chunk's bytes
after it, and the state. -/
def hostCryptChunk (fill : Nat → Byte) (chunk : List Byte) (s : State) :
    Host.Outcome (BitVec 2 × List Byte × State) Fault Refusal :=
  andThen (writeArray .data (chunkBytes fill chunk) s) fun s1 =>
  andThen (hostCommand (.crypt (BitVec.ofNat 5 chunk.length)) s1) fun s2 =>
  if readERR s2 ≠ 0 then .next (readERR s2, chunk, s2)
  else .next (0, (readArray .data s2.eng).toList.take chunk.length, s2)

/-- The loop of `crypt` over the chunks that are left; c counts the chunks done. An error ends it, the rest of the message
unchanged (R171). -/
def hostCryptLoop (fill : Nat → Nat → Byte) : Nat → Nat → List Byte → State →
    Host.Outcome (BitVec 2 × List Byte × State) Fault Refusal
  | 0, _, m, s => .next (0, m, s)
  | k + 1, c, m, s =>
    andThen (hostCryptChunk (fill c) (m.take 16) s) fun r =>
    if r.1 ≠ 0 then .next (r.1, r.2.1 ++ m.drop 16, r.2.2)
    else
      andThen (hostCryptLoop fill k (c + 1) (m.drop 16) r.2.2) fun q =>
      .next (q.1, r.2.1 ++ q.2.1, q.2.2)

/-- Protocol `crypt(buffer)` (R171): CRYPT 0 for an empty message, otherwise ceil(L/16) chunks. It answers ERR, the buffer
after the call, and the state. -/
def hostCrypt (fill : Nat → Nat → Byte) (m : List Byte) (s : State) :
    Host.Outcome (BitVec 2 × List Byte × State) Fault Refusal :=
  if m.length = 0 then
    andThen (hostCommand (.crypt 0) s) fun s1 => .next (readERR s1, m, s1)
  else hostCryptLoop fill ((m.length + 15) / 16) 0 m s

/-- Protocol `reset()` (R172). -/
def hostReset (s : State) : Result := hostCommand .reset s

/-- Protocol `nextBlock()`: NEXT_BLOCK, RD STATUS, RDKS (R173). It answers ERR, the sixteen KS bytes and the state. -/
def hostNextBlock (s : State) : Host.Outcome (BitVec 2 × Bytes × State) Fault Refusal :=
  andThen (hostCommand .nextBlock s) fun s1 =>
  .next (readERR s1, readArray .ks s1.eng, s1)

end Sys2Proof.Machine
end

