-- ==== Sys2Proof/Config.lean ====
section
/-! DEFINITION. The two parameters the spec leaves open (00_scope.md R9, R10). Neither has a value here: no proof can see one.
The parameters the spec fixes (R8, R9) are written where they are used. -/

namespace Sys2Proof

/-- The open part of `LAT(opc)`: the latency of each command less one cycle (00_scope.md R9, 70_reset_and_hazards.md R254).
No rule depends on it, and the model has no time. -/
opaque Config.latencyLessOne : BitVec 4 → Nat

/-- `LAT(opc)`, "a positive number of clock cycles" (R254). -/
def Config.latency (opc : BitVec 4) : Nat := Config.latencyLessOne opc + 1

/-- `ENGINE_BASES`: the base addresses of the engines a platform holds (00_scope.md R10, 20_memory.md R68). -/
opaque Config.engineBases : List Nat

end Sys2Proof
end

