-- ==== Sys2Proof/Machine/Platform.lean ====
section
/-! DEFINITION. A platform with several engines (00_scope.md R10, 20_memory.md R61, R68, 60_exceptions.md R225): each has its own
window and its own state. -/

namespace Sys2Proof.Machine

/-- The engines of a platform, each with its base address (R10). -/
abbrev Platform := List (Nat × State)

/-- At power-on every engine is in its reset state (60_exceptions.md R225). -/
def Platform.powerOn (bases : List Nat) : Platform := bases.map fun base => (base, State.reset)

/-- The platform of the open parameter `ENGINE_BASES`. -/
def Platform.reset : Platform := Platform.powerOn Config.engineBases

/-- The address lies in the 64-byte window at this base (20_memory.md R50). -/
def inWindow (base addr : Nat) : Bool := decide (base ≤ addr ∧ addr < base + 64)

/-- An access at a system address, its offset filled in from the window it falls in. The reset input has no offset (R240); that
on a platform an address picks its engine is a DESIGN CHOICE (log 16). -/
def Access.atOffset (off : Nat) : Access → Access
  | .write bytes _ v => .write bytes off v
  | .read bytes _ expect => .read bytes off expect
  | .resetInput => .resetInput

/-- The access goes to the engine whose window holds the address, and to no other (R10, R61). What an address outside every
window reaches is the platform's (20_memory.md R68): refused. Which engine's reset input the platform asserts is picked by an
address in the same way, and refused in the same way: a DESIGN CHOICE, since R240 gives the input no address (log 16). -/
def Platform.access (host addr : Nat) (a : Access) : Platform → Host.Outcome Platform Fault Refusal
  | [] => .refused (.outsideWindows addr)
  | (base, s) :: rest =>
    if inWindow base addr then
      andThen (performEvent ⟨host, a.atOffset (addr - base)⟩ s) fun s' => .next ((base, s') :: rest)
    else andThen (Platform.access host addr a rest) fun rest' => .next ((base, s) :: rest')

end Sys2Proof.Machine
end

