-- ==== Sys2Proof/Safety.lean ====
section
/-! DEFINITION. What a safe run is: every pending access supported (20_memory.md R54), the readiness invariant
(10_state.md R37), and the checks a test program states (30_encoding.md R88). -/

namespace Sys2Proof.Machine

/-- Whenever ready = false, X, C, b and S are all zero (10_state.md R37). -/
def Engine.inv (e : Engine) : Bool :=
  e.ready || (e.X == Vector.replicate 8 0 && e.C == Vector.replicate 8 0 && e.b == 0 && e.S == Vector.replicate 16 0)

def State.inv (s : State) : Bool := s.eng.inv

/-- An access the window defines: 32 bits, aligned, inside (20_memory.md R54), or the reset input. -/
def Access.supported : Access → Bool
  | .write bytes off _ => (accessReg bytes off).isSome
  | .read bytes off _ => (accessReg bytes off).isSome
  | .resetInput => true

/-- The command an access starts: a supported write to CMD of a legal word (20_memory.md R55, 43_control.md R192). -/
def Access.command : Access → Option Instr
  | .write bytes off v =>
    if accessReg bytes off = some .cmd then
      match decode v with
      | .instr i => some i
      | .illegal _ => none
    else none
  | .read _ _ _ => none
  | .resetInput => none

/-- The block-drawing commands, on a ready engine: NEXT_BLOCK and CRYPT with LEN >= 1 (42_keystream.md R161). -/
def drawsBlock : Instr → Bool
  | .reset => false
  | .setupKey _ => false
  | .nextBlock => true
  | .crypt len => decide (1 ≤ len.toNat)

/-- The commands that end a session (00_scope.md R17): RESET, and a SETUP_KEY that succeeds. -/
def endsSession : Instr → Bool
  | .reset => true
  | .setupKey len => decide (16 ≤ len.toNat)
  | .nextBlock => false
  | .crypt _ => false

/-- The access leaves the session in place: it is neither the reset input nor a command that ends the session. -/
def Access.keepsSession (a : Access) : Bool := a != .resetInput && !(a.command.any endsSession)

/-- How many of the accesses draw a block on a ready engine. -/
def blocksDrawn (p : List HostEvent) : Nat := p.countP fun ev => ev.access.command.any drawsBlock

/-- A host program with supported accesses only: the model refuses no step of it. -/
def State.supported (s : State) : Bool := s.pending.all fun ev => ev.access.supported

/-- Every read that stated an expected value returned it (30_encoding.md R88). -/
def State.checksHold (s : State) : Bool :=
  s.reads.all fun r => match r.expect with | some v => v == r.value | none => true

/-- The accesses of one host that are still to be performed, in that host's order (20_memory.md R62). -/
def State.programOf (s : State) (h : Nat) : List HostEvent := s.pending.filter fun ev => ev.host == h

/-- The results one host's reads returned (70_reset_and_hazards.md R255). -/
def State.readsOf (s : State) (h : Nat) : List ReadResult := s.reads.filter fun r => r.host == h

end Sys2Proof.Machine
end

