-- ==== Sys2Proof/Certificates/Slice0/Obligations.lean ====
section
/-! DEFINITION. The statements for the provers, each from a numbered rule of spec/. The engine has no memory, no program
counter and no privilege (20_memory.md R50, 10_state.md R32, 60_exceptions.md R221), so a frame speaks of the eight state
elements of 10_state.md R20 and of the host's own side. -/

open Sys2Proof Sys2Proof.Machine

/-! ## Reset -/

/-- R35, R190, R240: power-on, the RESET command (the word 0x00000001) and the reset input all leave every state element zero.
RESET completes in every state, and leaves the host's side unchanged. That the reset input is an event between two accesses is
the model's (log 6). -/
def Obligations.ResetClearsEveryStateElement : Prop :=
  let zero : Engine :=
    { X := Vector.replicate 8 0, C := Vector.replicate 8 0, b := 0, S := Vector.replicate 16 0, ready := false, ERR := 0,
      KEY := Vector.replicate 16 0, DATA := Vector.replicate 16 0 }
  State.reset.eng = zero ∧
  decode 0x00000001 = .instr .reset ∧
  (∀ s : State, exec .reset s = .next { s with eng := zero }) ∧
  (∀ (s : State) (h : Nat), performEvent ⟨h, .resetInput⟩ s = .next { s with eng := zero })

/-- RESET followed by any accesses P leaves the engine, and gives the reads, that power-on followed by P does, whatever happened
before the RESET (70_reset_and_hazards.md section 1; R242, which the spec marks as derived). -/
def Obligations.ResetIsolatesSessions : Prop :=
  ∀ (s : State) (P : List HostEvent),
    performAll (commandEvent 0x00000001 :: P) { s with pending := [], reads := [] } = performAll P State.reset

/-! ## SETUP_KEY -/

/-- R141, R143, R145, R146: n < 16 writes ERR = 1 and nothing else; n >= 16, whatever n is, loads KEY[0..15], runs four steps from
the carry 0, couples, sets ready, clears KEY and ERR, and leaves S, DATA and the host's side unchanged. -/
def Obligations.SetupKeyChecksLengthThenRunsSchedule : Prop :=
  ∀ (n : BitVec 5) (s : State),
    (n.toNat < 16 → exec (.setupKey n) s = .next { s with eng := { s.eng with ERR := 1 } }) ∧
    (16 ≤ n.toNat →
      let r := updateStep (updateStep (updateStep (updateStep
        { X := keyLoadX s.eng.KEY, C := keyLoadC s.eng.KEY, b := 0 })))
      exec (.setupKey n) s =
        .next { s with
          eng := { s.eng with
            X := r.X, C := couple r.X r.C, b := r.b, ready := true, KEY := Vector.replicate 16 0, ERR := 0 } })

/-- The key load, written out in full as 41_key_schedule.md section 2 lists it (R142), K[i] the little-endian half of key bytes
2i and 2i+1. The reading of the odd indices modulo 8 is the spec's own inference ("the only reading that stays within
K[0..7]"). -/
def Obligations.KeyLoadWrittenOut : Prop :=
  ∀ KEY : Bytes,
    let K : Vector Half 8 :=
      #v[KEY[1] ++ KEY[0], KEY[3] ++ KEY[2], KEY[5] ++ KEY[4], KEY[7] ++ KEY[6],
         KEY[9] ++ KEY[8], KEY[11] ++ KEY[10], KEY[13] ++ KEY[12], KEY[15] ++ KEY[14]]
    keyLoadX KEY =
      #v[K[1] ++ K[0], K[6] ++ K[5], K[3] ++ K[2], K[0] ++ K[7], K[5] ++ K[4], K[2] ++ K[1], K[7] ++ K[6], K[4] ++ K[3]] ∧
    keyLoadC KEY =
      #v[K[4] ++ K[5], K[1] ++ K[2], K[6] ++ K[7], K[3] ++ K[4], K[0] ++ K[1], K[5] ++ K[6], K[2] ++ K[3], K[7] ++ K[0]]

/-- R144: coupling folds X into C, word i taking X[(i+4) mod 8], written out; X and b are left as Iterate4 left them. -/
def Obligations.CoupleFoldsStateIntoCounters : Prop :=
  (∀ X C : Words,
    couple X C =
      #v[C[0] ^^^ X[4], C[1] ^^^ X[5], C[2] ^^^ X[6], C[3] ^^^ X[7], C[4] ^^^ X[0], C[5] ^^^ X[1], C[6] ^^^ X[2],
         C[7] ^^^ X[3]]) ∧
  (∀ KEY : Bytes,
    let r := iterateStep 4 (keyLoad KEY)
    keySchedule KEY = { X := r.X, C := couple r.X r.C, b := r.b })

/-- The session after SETUP_KEY depends on KEY alone, whatever X, C, b, S, ready, ERR and DATA held, and whatever n is
(41_key_schedule.md section 2). -/
def Obligations.SessionDependsOnKeyAlone : Prop :=
  ∀ (n m : BitVec 5) (s t : State), 16 ≤ n.toNat → 16 ≤ m.toNat → s.eng.KEY = t.eng.KEY →
    ∃ s' t', exec (.setupKey n) s = .next s' ∧ exec (.setupKey m) t = .next t' ∧
      s'.eng.X = t'.eng.X ∧ s'.eng.C = t'.eng.C ∧ s'.eng.b = t'.eng.b ∧ s'.eng.ready = true ∧ t'.eng.ready = true

/-- After a SETUP_KEY that succeeds, a second one without new key writes runs the schedule on the all-zero key
(70_reset_and_hazards.md section 3; R247, which the spec marks as derived). -/
def Obligations.SecondSetupUsesZeroKey : Prop :=
  ∀ (n m : BitVec 5) (s : State), 16 ≤ n.toNat → 16 ≤ m.toNat →
    ∃ s' s'', exec (.setupKey n) s = .next s' ∧ exec (.setupKey m) s' = .next s'' ∧
      s''.eng.ERR = 0 ∧ s''.eng.ready = true ∧ s''.eng.session = keySchedule (Vector.replicate 16 0)

/-! ## NEXT_BLOCK and CRYPT -/

/-- R160: the word 0x00000003 is NEXT_BLOCK. Ready: one step, S the block of the new X, ERR = 0, nothing else. Not ready: ERR = 2
and nothing else. -/
def Obligations.NextBlockDrawsOneBlock : Prop :=
  decode 0x00000003 = .instr .nextBlock ∧
  ∀ s : State,
    (s.eng.ready = true →
      let r := updateStep { X := s.eng.X, C := s.eng.C, b := s.eng.b }
      exec .nextBlock s =
        .next { s with eng := { s.eng with X := r.X, C := r.C, b := r.b, S := block r.X, ERR := 0 } }) ∧
    (s.eng.ready = false → exec .nextBlock s = .next { s with eng := { s.eng with ERR := 2 } })

/-- R162, for n from 0 to 16: the word 0x00000004 | n << 4 is CRYPT n. Ready: n = 0 changes only ERR; n >= 1 draws one block and
combines exactly bytes 0 to n-1 with it. Not ready: ERR = 2 and nothing else, also for n = 0. -/
def Obligations.CryptCombinesOneBlock : Prop :=
  ∀ (n : BitVec 5) (s : State), n.toNat ≤ 16 →
    let r := updateStep { X := s.eng.X, C := s.eng.C, b := s.eng.b }
    decode (0x00000004 ||| n.setWidth 32 <<< 4) = .instr (.crypt n) ∧
    (s.eng.ready = true → n.toNat = 0 → exec (.crypt n) s = .next { s with eng := { s.eng with ERR := 0 } }) ∧
    (s.eng.ready = true → 1 ≤ n.toNat → exec (.crypt n) s =
      .next { s with
        eng := { s.eng with
          X := r.X, C := r.C, b := r.b, S := block r.X, ERR := 0,
          DATA := Vector.ofFn fun j : Fin 16 =>
            if j.val < n.toNat then s.eng.DATA[j] ^^^ (block r.X)[j] else s.eng.DATA[j] } }) ∧
    (s.eng.ready = false → exec (.crypt n) s = .next { s with eng := { s.eng with ERR := 2 } })

/-- R213: after power-on, the reset input or RESET the engine is not ready, and on an engine that is not ready a CMD write of
NEXT_BLOCK, or of CRYPT with any LEN from 0 to 16, writes ERR = 2 and nothing else. -/
def Obligations.NotReadyCommandsOnlySetErr : Prop :=
  State.reset.eng.ready = false ∧
  (∀ (s s' : State) (h : Nat),
    performEvent ⟨h, .resetInput⟩ s = .next s' ∨ performEvent ⟨h, .write 4 0x00 0x00000001⟩ s = .next s' →
    s'.eng.ready = false) ∧
  ∀ (s : State) (h : Nat), s.eng.ready = false →
    performEvent ⟨h, .write 4 0x00 0x00000003⟩ s = .next { s with eng := { s.eng with ERR := 2 } } ∧
    ∀ n : BitVec 5, n.toNat ≤ 16 →
      performEvent ⟨h, .write 4 0x00 (0x00000004 ||| n.setWidth 32 <<< 4)⟩ s =
        .next { s with eng := { s.eng with ERR := 2 } }

/-- R163: a CRYPT with n >= 1 leaves the session and the keystream buffer that NEXT_BLOCK leaves, whatever n is; so the unused
bytes of its block are discarded and no offset is kept. -/
def Obligations.CryptKeepsNoBlockOffset : Prop :=
  ∀ (n : BitVec 5) (s : State), s.eng.ready = true → 1 ≤ n.toNat → n.toNat ≤ 16 →
    ∃ s' s'', exec (.crypt n) s = .next s' ∧ exec .nextBlock s = .next s'' ∧
      { s'.eng with DATA := s.eng.DATA } = s''.eng

/-- The block sequence of a session (42_keystream.md section 1; R161, which the spec marks as derived): from a ready engine, any
program of supported accesses that does not end the session leaves the session stepped once for each block-drawing command, and
S the block of the last one. -/
def Obligations.BlocksOfSessionFollowTheStep : Prop :=
  ∀ (s : State) (p : List HostEvent), s.eng.ready = true →
    (∀ ev ∈ p, ev.access.supported = true ∧ ev.access.keepsSession = true) →
    ∃ t, performAll p s = .next t ∧
      t.eng.ready = true ∧
      t.eng.session = iterateStep (blocksDrawn p) s.eng.session ∧
      (blocksDrawn p = 0 → t.eng.S = s.eng.S) ∧
      (1 ≤ blocksDrawn p → t.eng.S = block (iterateStep (blocksDrawn p) s.eng.session).X)

/-! ## Command words -/

/-- The command words of 30_encoding.md section 2, for every LEN. -/
def Obligations.CommandWordsAreAsTabled : Prop :=
  encode .reset = 0x00000001 ∧ encode .nextBlock = 0x00000003 ∧
  (∀ n : BitVec 5, (encode (.setupKey n)).toNat = 2 + 16 * n.toNat) ∧
  (∀ n : BitVec 5, (encode (.crypt n)).toNat = 4 + 16 * n.toNat)

/-- Words of 30_encoding.md section 2, written out: what each decodes to. A sanity statement. -/
def Obligations.ExampleWordsDecode : Prop :=
  decode 0b00000000000000000000000000000001 = .instr .reset ∧
  decode 0b00000000000000000000000100000010 = .instr (.setupKey 16) ∧
  decode 0b00000000000000000000000111110010 = .instr (.setupKey 31) ∧
  decode 0b00000000000000000000000000000011 = .instr .nextBlock ∧
  decode 0b00000000000000000000000100000100 = .instr (.crypt 16) ∧
  decode 0b00000000000000000000000000000100 = .instr (.crypt 0) ∧
  decode 0x00000114 = .illegal .lenNotAllowed ∧
  decode 0x00000011 = .illegal .lenNotAllowed ∧
  decode 0x00000000 = .illegal .reservedOpcode ∧
  decode 0x00000005 = .illegal .reservedOpcode ∧
  decode 0x80000003 = .illegal .reservedField

/-- Decode and encode agree (30_encoding.md sections 1 and 2): every well-formed command is the decoding of its own word, at every
LEN the encoding admits, and a word that decodes to a command is that command's word. -/
def Obligations.DecodeAndEncodeAgree : Prop :=
  (∀ i : Instr, i.wf = true → decode (encode i) = .instr i) ∧
  (∀ (v : Word) (i : Instr), decode v = .instr i → i.wf = true ∧ encode i = v)

/-- R84, in numbers read from the word (RSV v[31:9], OPC v[3:0], n = v[8:4]): what `legal` is true of, and that it is true of
exactly 51 words. -/
def Obligations.LegalWordsAreFiftyOne : Prop :=
  (∀ v : Word,
    let opc := v.toNat % 16
    let n := v.toNat / 16 % 32
    legal v = true ↔
      v.toNat / 512 = 0 ∧ ((opc = 1 ∧ n = 0) ∨ opc = 2 ∨ (opc = 3 ∧ n = 0) ∨ (opc = 4 ∧ n ≤ 16))) ∧
  ∃ words : List Word, words.Nodup ∧ words.length = 51 ∧ ∀ v : Word, v ∈ words ↔ legal v = true

/-- R83, R191, R214: a word is illegal for three causes, in bits of the word (OPC v[3:0], LEN v[8:4], RSV v[31:9]); writing an
illegal word to CMD writes ERR = 3, whatever the cause, and nothing else. -/
def Obligations.IllegalWordsOnlySetErr : Prop :=
  ∀ v : Word,
    (legal v = false ↔
      (v.toNat % 16 = 0 ∨ 5 ≤ v.toNat % 16) ∨
      v.toNat / 512 ≠ 0 ∨
      ((v.toNat % 16 = 1 ∨ v.toNat % 16 = 3) ∧ v.toNat / 16 % 32 ≠ 0) ∨
      (v.toNat % 16 = 4 ∧ 16 < v.toNat / 16 % 32)) ∧
    (legal v = false → ∀ (s : State) (h : Nat),
      performEvent ⟨h, .write 4 0x00 v⟩ s = .next { s with eng := { s.eng with ERR := 3 } })

/-- R211, R216: what ERR is after any CMD write, and STATUS bits 2:1 with it: 3 for an illegal word whatever else holds, then 2
or 1 by the opcode, else 0. Every command write completes. -/
def Obligations.ErrAfterEveryCommand : Prop :=
  ∀ (v : Word) (s : State), ∃ s', execute v s = .next s' ∧
    (regRead .status s'.eng).extractLsb' 1 2 = s'.eng.ERR ∧
    s'.eng.ERR =
      if legal v = false then 3
      else if (opcField v = 3 ∨ opcField v = 4) ∧ s.eng.ready = false then 2
      else if opcField v = 2 ∧ (lenField v).toNat < 16 then 1
      else 0

/-- Errors are precise (60_exceptions.md section 1; R217, which the spec marks as derived): a command that raises an error writes
nothing but ERR. -/
def Obligations.ErrorsArePrecise : Prop :=
  ∀ (v : Word) (s s' : State), execute v s = .next s' → s'.eng.ERR ≠ 0 →
    s' = { s with eng := { s.eng with ERR := s'.eng.ERR } }

/-! ## The step -/

/-- A step runs the decoded command: when the next pending access writes a word to CMD that decodes to i, the step is exec of i
on the state with that access taken off (20_memory.md section 2, 43_control.md section 3). -/
def Obligations.StepRunsTheDecodedCommand : Prop :=
  ∀ (s : State) (h : Nat) (v : Word) (rest : List HostEvent) (i : Instr),
    s.pending = ⟨h, .write 4 0x00 v⟩ :: rest → decode v = .instr i →
    step s = exec i { s with pending := rest }

/-- A run over the pending accesses is their performance one after another, from the first to the last (20_memory.md section 3;
R61, which the spec marks as derived). -/
def Obligations.RunPerformsAccessesInOrder : Prop :=
  ∀ s : State, Host.Core.run Sys2Proof.core s.pending.length s = performAll s.pending { s with pending := [] }

/-- A program of supported accesses runs to its end, one step an access, each read returns one value, and the machine then keeps
its state (70_reset_and_hazards.md section 4, 20_memory.md section 3). That a step with nothing pending keeps the state is the
model's reading (log 4). -/
def Obligations.SupportedProgramsEnd : Prop :=
  ∀ s : State, s.supported = true →
    ∃ t : State, Host.Core.run Sys2Proof.core s.pending.length s = .next t ∧ t.pending = [] ∧
      t.reads.length = s.reads.length +
        s.pending.countP (fun ev => match ev.access with | .read _ _ _ => true | _ => false) ∧
      step t = .next t

/-- A step takes the oldest access of one host off, and leaves every other host's program and results as they were (20_memory.md
section 3). The tags that tell the hosts apart are the model's (log 10). -/
def Obligations.StepKeepsEachHostsOrder : Prop :=
  ∀ (s s' : State) (ev : HostEvent) (rest : List HostEvent),
    s.pending = ev :: rest → step s = .next s' →
    s.programOf ev.host = ev :: s'.programOf ev.host ∧
    ∀ h : Nat, h ≠ ev.host → s'.programOf h = s.programOf h ∧ s'.readsOf h = s.readsOf h

/-- The readiness invariant of 10_state.md section 6 (R37, which the spec marks as derived) holds at reset. -/
def Obligations.ReadinessHoldsAtReset : Prop := State.reset.inv = true

/-- Every step keeps the readiness invariant of 10_state.md section 6 (R37, which the spec marks as derived), whatever the next
access is. -/
def Obligations.StepKeepsReadiness : Prop :=
  ∀ s s' : State, s.inv = true → step s = .next s' → s'.inv = true

/-- R26, R36: ready becomes true only by a SETUP_KEY with LEN >= 16, and false only by RESET or the reset input; in either mode
those three events do so. It is false after power-on, and a host reads it as STATUS bit 0. That the reset input is an event
between two accesses is the model's (log 6). -/
def Obligations.ModeTransitions : Prop :=
  (∀ (ev : HostEvent) (s s' : State), performEvent ev s = .next s' → s.eng.ready = false → s'.eng.ready = true →
    ∃ n : BitVec 5, 16 ≤ n.toNat ∧ ev.access = .write 4 0x00 (encode (.setupKey n))) ∧
  (∀ (ev : HostEvent) (s s' : State), performEvent ev s = .next s' → s.eng.ready = true → s'.eng.ready = false →
    ev.access = .resetInput ∨ ev.access = .write 4 0x00 (encode .reset)) ∧
  (∀ (h : Nat) (n : BitVec 5) (s : State), 16 ≤ n.toNat →
    ∃ s', performEvent ⟨h, .write 4 0x00 (encode (.setupKey n))⟩ s = .next s' ∧ s'.eng.ready = true) ∧
  (∀ (h : Nat) (s : State),
    ∃ s', performEvent ⟨h, .write 4 0x00 (encode .reset)⟩ s = .next s' ∧ s'.eng.ready = false) ∧
  (∀ (h : Nat) (s : State), ∃ s', performEvent ⟨h, .resetInput⟩ s = .next s' ∧ s'.eng.ready = false) ∧
  State.reset.eng.ready = false ∧
  ∀ e : Engine, (regRead .status e).getLsbD 0 = e.ready

/-- X, C and b change only by the reset input, a command that ends the session, or a block-drawing command on a ready engine; S
only by the reset input, RESET, or a block-drawing command on a ready engine (the "written by" lists of 10_state.md sections 2
and 3). -/
def Obligations.WhatChangesTheSession : Prop :=
  ∀ (ev : HostEvent) (s s' : State), performEvent ev s = .next s' →
    (s'.eng.session ≠ s.eng.session →
      ev.access = .resetInput ∨
      ∃ i, ev.access.command = some i ∧ (endsSession i = true ∨ (drawsBlock i = true ∧ s.eng.ready = true))) ∧
    (s'.eng.S ≠ s.eng.S →
      ev.access = .resetInput ∨
      ∃ i, ev.access.command = some i ∧ (i = .reset ∨ (drawsBlock i = true ∧ s.eng.ready = true)))

/-- ERR changes only by a CMD write or the reset input; KEY only by a write of KEY0 to KEY3, a command that ends the session or
the reset input; byte j of DATA only by a write of its own DATA register, RESET, the reset input, or a CRYPT n with j < n on a
ready engine (10_state.md section 3). -/
def Obligations.WhatChangesTheInterfaceState : Prop :=
  ∀ (ev : HostEvent) (s s' : State), performEvent ev s = .next s' →
    (s'.eng.ERR ≠ s.eng.ERR → ev.access = .resetInput ∨ ∃ v, ev.access = .write 4 0x00 v) ∧
    (s'.eng.KEY ≠ s.eng.KEY →
      ev.access = .resetInput ∨
      (∃ (w : Fin 4) (v : Word), ev.access = .write 4 (0x10 + 4 * w.val) v) ∨
      ∃ i, ev.access.command = some i ∧ endsSession i = true) ∧
    ∀ j : Fin 16, s'.eng.DATA[j] ≠ s.eng.DATA[j] →
      ev.access = .resetInput ∨
      (∃ v : Word, ev.access = .write 4 (0x20 + 4 * (j.val / 4)) v) ∨
      ev.access.command = some .reset ∨
      ∃ n : BitVec 5, ev.access.command = some (.crypt n) ∧ j.val < n.toNat ∧ s.eng.ready = true

/-! ## The register window -/

/-- R55, every offset: a write to CMD is Execute; a write of KEYw or DATAw puts byte k of the word in byte 4w+k and changes
nothing else; a write to any other register has no effect. -/
def Obligations.RegWriteByOffset : Prop :=
  ∀ (s : State) (h : Nat) (v : Word),
    performEvent ⟨h, .write 4 0x00 v⟩ s = execute v s ∧
    (∀ w : Fin 4, ∃ K : Bytes,
      performEvent ⟨h, .write 4 (0x10 + 4 * w.val) v⟩ s = .next { s with eng := { s.eng with KEY := K } } ∧
      ∀ j : Fin 16, K[j] = if j.val / 4 = w.val then v.extractLsb' (8 * (j.val % 4)) 8 else s.eng.KEY[j]) ∧
    (∀ w : Fin 4, ∃ D : Bytes,
      performEvent ⟨h, .write 4 (0x20 + 4 * w.val) v⟩ s = .next { s with eng := { s.eng with DATA := D } } ∧
      ∀ j : Fin 16, D[j] = if j.val / 4 = w.val then v.extractLsb' (8 * (j.val % 4)) 8 else s.eng.DATA[j]) ∧
    ∀ off ∈ [0x04, 0x08, 0x0C, 0x30, 0x34, 0x38, 0x3C], performEvent ⟨h, .write 4 off v⟩ s = .next s

/-- R56, every offset: what a read returns to the host that asked; it changes no engine state and no pending access. -/
def Obligations.RegReadByOffset : Prop :=
  ∀ (s : State) (h : Nat) (x : Option Word),
    let returns : Nat → Word → Prop := fun off v =>
      performEvent ⟨h, .read 4 off x⟩ s = .next { s with reads := s.reads ++ [⟨h, off, v, x⟩] }
    returns 0x04 (s.eng.ERR.setWidth 32 <<< 1 ||| if s.eng.ready then 1 else 0) ∧
    (∀ w : Fin 4, returns (0x20 + 4 * w.val)
      (s.eng.DATA[4 * w.val].setWidth 32 ||| s.eng.DATA[4 * w.val + 1].setWidth 32 <<< 8 |||
        s.eng.DATA[4 * w.val + 2].setWidth 32 <<< 16 ||| s.eng.DATA[4 * w.val + 3].setWidth 32 <<< 24)) ∧
    (∀ w : Fin 4, returns (0x30 + 4 * w.val)
      (s.eng.S[4 * w.val].setWidth 32 ||| s.eng.S[4 * w.val + 1].setWidth 32 <<< 8 |||
        s.eng.S[4 * w.val + 2].setWidth 32 <<< 16 ||| s.eng.S[4 * w.val + 3].setWidth 32 <<< 24)) ∧
    ∀ off ∈ [0x00, 0x08, 0x0C, 0x10, 0x14, 0x18, 0x1C], returns off 0

/-- R52, and the same of DATA: bits [8k+7:8k] of what KSw and DATAw read as are bytes 4w+k of S and of DATA. -/
def Obligations.ArrayReadsAreLittleEndian : Prop :=
  ∀ (e : Engine) (w k : Fin 4),
    (regRead (.data w) e).extractLsb' (8 * k.val) 8 = e.DATA[4 * w.val + k.val] ∧
    (regRead (.ks w) e).extractLsb' (8 * k.val) 8 = e.S[4 * w.val + k.val]

/-- A word written to DATAw reads back, and no other register of the window reads differently after it (20_memory.md section
2). -/
def Obligations.DataReadsBackWhatWasWritten : Prop :=
  ∀ (s : State) (w : Fin 4) (v : Word), ∃ s', regWrite (.data w) v s = .next s' ∧
    regRead (.data w) s'.eng = v ∧ ∀ r : WinReg, r ≠ .data w → regRead r s'.eng = regRead r s.eng

/-- R31: STATUS holds READY in bit 0, ERR in bits 2:1 and zero in bits 31:3; it reads 0 after reset; a host write is ignored. -/
def Obligations.StatusFields : Prop :=
  (∀ e : Engine,
    (regRead .status e).getLsbD 0 = e.ready ∧ (regRead .status e).extractLsb' 1 2 = e.ERR ∧
    (regRead .status e).extractLsb' 3 29 = 0) ∧
  regRead .status State.reset.eng = 0 ∧
  ∀ (s : State) (h : Nat) (v : Word), performEvent ⟨h, .write 4 0x04 v⟩ s = .next s

/-- R54: an access is refused exactly when it is not 32 bits wide, misaligned or outside 0x00 to 0x3F. -/
def Obligations.UnsupportedAccessesAreRefused : Prop :=
  ∀ (s : State) (h bytes off : Nat) (v : Word) (x : Option Word),
    ((bytes ≠ 4 ∨ off % 4 ≠ 0 ∨ 0x3F < off) →
      performEvent ⟨h, .write bytes off v⟩ s = .refused (.unsupportedAccess bytes off) ∧
      performEvent ⟨h, .read bytes off x⟩ s = .refused (.unsupportedAccess bytes off)) ∧
    (¬(bytes ≠ 4 ∨ off % 4 ≠ 0 ∨ 0x3F < off) →
      (∃ s', performEvent ⟨h, .write bytes off v⟩ s = .next s') ∧
      ∃ s', performEvent ⟨h, .read bytes off x⟩ s = .next s')

/-- Reads change no engine state and repeat; KEYw and DATAw writes are idempotent; two NEXT_BLOCKs on a ready engine perform two
steps (20_memory.md section 2; R59, which the spec marks as derived). -/
def Obligations.RepeatedAccesses : Prop :=
  (∀ (s s' : State) (h off : Nat) (x : Option Word), performEvent ⟨h, .read 4 off x⟩ s = .next s' →
    s'.eng = s.eng ∧ ∃ r : ReadResult, s'.reads = s.reads ++ [r] ∧
      performEvent ⟨h, .read 4 off x⟩ s' = .next { s' with reads := s'.reads ++ [r] }) ∧
  (∀ (s : State) (w : Fin 4) (v : Word),
    andThen (regWrite (.key w) v s) (regWrite (.key w) v) = regWrite (.key w) v s ∧
    andThen (regWrite (.data w) v s) (regWrite (.data w) v) = regWrite (.data w) v s) ∧
  (∀ s : State, s.eng.ready = true →
    ∃ s', andThen (regWrite .cmd 0x00000003 s) (regWrite .cmd 0x00000003) = .next s' ∧
      s'.eng.session = updateStep (updateStep s.eng.session))

/-- What a read returns does not depend on X, C, b or KEY (10_state.md sections 3 and 4; R34, which the spec marks as derived). -/
def Obligations.ReadsHideTheSessionAndKey : Prop :=
  ∀ (r : WinReg) (e e' : Engine), e.S = e'.S → e.DATA = e'.DATA → e.ready = e'.ready → e.ERR = e'.ERR →
    regRead r e = regRead r e'

/-! ## The datapath -/

/-- The carry chain is one 256-bit addition of A and the carry (40_datapath.md section 2; the sentence of R101 that the spec marks
as derived). -/
def Obligations.CounterUpdateIsWideAddition : Prop :=
  ∀ (C : Words) (b : Bit),
    let value : Words → Nat := fun W =>
      W[0].toNat + 2 ^ 32 * W[1].toNat + 2 ^ 64 * W[2].toNat + 2 ^ 96 * W[3].toNat + 2 ^ 128 * W[4].toNat +
        2 ^ 160 * W[5].toNat + 2 ^ 192 * W[6].toNat + 2 ^ 224 * W[7].toNat
    let A : Words :=
      #v[0x4D34D34D, 0xD34D34D3, 0x34D34D34, 0x4D34D34D, 0xD34D34D3, 0x34D34D34, 0x4D34D34D, 0xD34D34D3]
    value (counterUpdate C b).1 + 2 ^ 256 * (counterUpdate C b).2.toNat = value C + value A + b.toNat

/-- A word's carry is 0 or 1, the word sum is exact, and a word carries out exactly when the new word is less than the old one
(40_datapath.md section 2; R102 (a) and (b), which the spec marks as derived). -/
def Obligations.WordCarriesExactlyWhenItShrinks : Prop :=
  ∀ (C : Words) (b : Bit), ∃ carry : Nat → Nat, carry 0 = b.toNat ∧ carry 8 = (counterUpdate C b).2.toNat ∧
    ∀ i : Fin 8,
      carry (i.val + 1) ≤ 1 ∧
      C[i].toNat + counterConst[i].toNat + carry i.val = (counterUpdate C b).1[i].toNat + 2 ^ 32 * carry (i.val + 1) ∧
      (carry (i.val + 1) = 1 ↔ (counterUpdate C b).1[i].toNat < C[i].toNat)

/-- R103: g is the XOR of the halves of the exact square of the sum modulo 2^32, and a step applies it as G[i] = g(X[i], C'[i]),
X the state words before the step and C' the new counters. -/
def Obligations.GFunctionFoldsTheExactSquare : Prop :=
  (∀ u v : Word,
    let s := (u.toNat + v.toNat) % 2 ^ 32
    (gFunction u v).toNat = (s * s % 2 ^ 32) ^^^ (s * s / 2 ^ 32)) ∧
  ∀ r : Session, ∃ G : Words, (updateStep r).X = nextState G ∧
    ∀ i : Fin 8, G[i] = gFunction r.X[i] (updateStep r).C[i]

/-- The corner cases of g (40_datapath.md section 3; R104, which the spec marks as derived): it depends on the sum alone, is zero
where the sum wraps to zero, and has the listed values. -/
def Obligations.GCornerCases : Prop :=
  (∀ u v : Word, gFunction u v = gFunction (u + v) 0) ∧
  (∀ u : Word, gFunction u (-u) = 0) ∧
  gFunction 0 0 = 0 ∧ gFunction 1 0 = 1 ∧ gFunction 0x0000FFFF 0 = 0xFFFE0001 ∧ gFunction 0x00010000 0 = 0x00000001 ∧
  gFunction 0x7FFFFFFF 0 = 0x3FFFFFFE ∧ gFunction 0x80000000 0 = 0x40000000 ∧ gFunction 0xFFFFFFFF 0 = 0xFFFFFFFF

/-- R105: the recombination network, with the library's rotation. -/
def Obligations.NextStateNetwork : Prop :=
  ∀ G : Words,
    nextState G =
      #v[G[0] + G[7].rotateLeft 16 + G[6].rotateLeft 16, G[1] + G[0].rotateLeft 8 + G[7],
         G[2] + G[1].rotateLeft 16 + G[0].rotateLeft 16, G[3] + G[2].rotateLeft 8 + G[1],
         G[4] + G[3].rotateLeft 16 + G[2].rotateLeft 16, G[5] + G[4].rotateLeft 8 + G[3],
         G[6] + G[5].rotateLeft 16 + G[4].rotateLeft 16, G[7] + G[6].rotateLeft 8 + G[5]]

/-- R106: counters first, then g of the old X and the new counters, then the recombination. -/
def Obligations.StepOrder : Prop :=
  ∀ (X C : Words) (b : Bit),
    let C' := (counterUpdate C b).1
    updateStep { X := X, C := C, b := b } =
      { X := nextState #v[gFunction X[0] C'[0], gFunction X[1] C'[1], gFunction X[2] C'[2], gFunction X[3] C'[3],
          gFunction X[4] C'[4], gFunction X[5] C'[5], gFunction X[6] C'[6], gFunction X[7] C'[7]],
        C := C', b := (counterUpdate C b).2 }

/-- R108, with the combinations of R107: the sixteen block bytes, in bits of the state words. -/
def Obligations.BlockBytes : Prop :=
  ∀ X : Words,
    block X =
      #v[X[0].extractLsb' 0 8 ^^^ X[5].extractLsb' 16 8, X[0].extractLsb' 8 8 ^^^ X[5].extractLsb' 24 8,
         X[0].extractLsb' 16 8 ^^^ X[3].extractLsb' 0 8, X[0].extractLsb' 24 8 ^^^ X[3].extractLsb' 8 8,
         X[2].extractLsb' 0 8 ^^^ X[7].extractLsb' 16 8, X[2].extractLsb' 8 8 ^^^ X[7].extractLsb' 24 8,
         X[2].extractLsb' 16 8 ^^^ X[5].extractLsb' 0 8, X[2].extractLsb' 24 8 ^^^ X[5].extractLsb' 8 8,
         X[4].extractLsb' 0 8 ^^^ X[1].extractLsb' 16 8, X[4].extractLsb' 8 8 ^^^ X[1].extractLsb' 24 8,
         X[4].extractLsb' 16 8 ^^^ X[7].extractLsb' 0 8, X[4].extractLsb' 24 8 ^^^ X[7].extractLsb' 8 8,
         X[6].extractLsb' 0 8 ^^^ X[3].extractLsb' 16 8, X[6].extractLsb' 8 8 ^^^ X[3].extractLsb' 24 8,
         X[6].extractLsb' 16 8 ^^^ X[1].extractLsb' 0 8, X[6].extractLsb' 24 8 ^^^ X[1].extractLsb' 8 8]

/-- The arithmetic and the logical shifter give the same S[6..7] combination, and it is the model's (40_datapath.md section 6;
R109, which the spec marks as derived). -/
def Obligations.EitherShifterGivesTheSameLane : Prop :=
  ∀ X : Words,
    ((X[2].sshiftRight 16) ^^^ X[5]).extractLsb' 0 16 = (extract X)[3] ∧
    ((X[2] >>> 16) ^^^ X[5]).extractLsb' 0 16 = (extract X)[3]

/-- R110: lane j is combined exactly when j < n, the combiner is self-inverse, and a lane with S[j] = 0 is unchanged. -/
def Obligations.XorCombinerLanes : Prop :=
  ∀ (D S : Bytes) (n : Nat), n ≤ 16 →
    (∀ j : Fin 16, (xorCombine D S n)[j] = if j.val < n then D[j] ^^^ S[j] else D[j]) ∧
    xorCombine (xorCombine D S n) S n = D ∧ xorCombine D S 0 = D ∧
    ∀ j : Fin 16, S[j] = 0 → (xorCombine D S n)[j] = D[j]

/-! ## Host protocols -/

/-- R170: a key of 16 bytes or more sets up with its first 16 bytes; a shorter one fails with InvalidKeyLength, KEY holding the
padded bytes and the session unchanged. -/
def Obligations.HostSetupKeyOutcomes : Prop :=
  ∀ (key : List Byte) (s : State),
    (key.length < 16 → hostSetupKey key s =
      .next (1, { s with eng := { s.eng with KEY := Vector.ofFn fun j : Fin 16 => key.getD j.val 0, ERR := 1 } })) ∧
    (16 ≤ key.length →
      let r := keySchedule (Vector.ofFn fun j : Fin 16 => key.getD j.val 0)
      hostSetupKey key s =
        .next (0, { s with
          eng := { s.eng with
            X := r.X, C := r.C, b := r.b, ready := true, KEY := Vector.replicate 16 0, ERR := 0 } }))

/-- On a ready engine `crypt` answers 0 and m[i] ^ block_(i div 16 + 1)[i mod 16], block k being the k-th block drawn in the call,
whatever the padding bytes are (42_keystream.md section 2; R171, which the spec marks as derived). -/
def Obligations.HostCryptCombinesTheKeystream : Prop :=
  ∀ (fill : Nat → Nat → Byte) (m : List Byte) (s : State), s.eng.ready = true →
    ∃ (out : List Byte) (s' : State), hostCrypt fill m s = .next (0, out, s') ∧
      out.length = m.length ∧
      (∀ (i : Nat) (hi : i < m.length),
        out[i]? = some (m[i] ^^^ (block (iterateStep (i / 16 + 1) s.eng.session).X)[i % 16])) ∧
      s'.eng.ready = true ∧ s'.eng.ERR = 0 ∧ s'.eng.session = iterateStep ((m.length + 15) / 16) s.eng.session

/-- On an engine that is not ready `crypt` answers 2 and the message unchanged, for every message; and so after `reset()`
(42_keystream.md section 2). -/
def Obligations.HostCryptFailsUntilSetup : Prop :=
  (∀ (fill : Nat → Nat → Byte) (m : List Byte) (s : State), s.eng.ready = false →
    ∃ s', hostCrypt fill m s = .next (2, m, s') ∧
      s'.eng = { s.eng with ERR := 2, DATA := s'.eng.DATA } ∧ (m = [] → s'.eng.DATA = s.eng.DATA)) ∧
  (∀ (fill : Nat → Nat → Byte) (m : List Byte) (s : State),
    ∃ s' s'', hostReset s = .next s' ∧ hostCrypt fill m s' = .next (2, m, s''))

/-- Encrypting and then decrypting from an engine in the same session gives the message back, for every message length and any
padding (42_keystream.md section 1; R164, which the spec marks as derived). -/
def Obligations.DecryptionUndoesEncryption : Prop :=
  ∀ (fill fill' : Nat → Nat → Byte) (m : List Byte) (s t : State),
    s.eng.ready = true → t.eng.ready = true → t.eng.session = s.eng.session →
    ∃ (c : List Byte) (s' t' : State),
      hostCrypt fill m s = .next (0, c, s') ∧ hostCrypt fill' c t = .next (0, m, t') ∧
      t'.eng.session = s'.eng.session

/-- A message may be split at a multiple of 16 bytes: two calls give the same bytes and the same session as one (42_keystream.md
section 2; R174, which the spec marks as derived). -/
def Obligations.SplittingAtBlocksChangesNothing : Prop :=
  ∀ (fill : Nat → Nat → Byte) (m₁ m₂ : List Byte) (s : State), s.eng.ready = true → m₁.length % 16 = 0 →
    ∃ (o₁ o₂ : List Byte) (s₁ s₂ s' : State),
      hostCrypt fill m₁ s = .next (0, o₁, s₁) ∧ hostCrypt fill m₂ s₁ = .next (0, o₂, s₂) ∧
      hostCrypt fill (m₁ ++ m₂) s = .next (0, o₁ ++ o₂, s') ∧ s'.eng.session = s₂.eng.session

/-- `nextBlock()` answers the block the command drew; on an engine that is not ready, in a state where the readiness invariant
holds, it answers 2 and zeros (42_keystream.md section 2). -/
def Obligations.HostNextBlockOutcomes : Prop :=
  ∀ s : State,
    (s.eng.ready = true → ∃ s', hostNextBlock s = .next (0, block (updateStep s.eng.session).X, s')) ∧
    (s.eng.ready = false → s.inv = true →
      hostNextBlock s = .next (2, Vector.replicate 16 0, { s with eng := { s.eng with ERR := 2 } }))

/-! ## Assembler and platform -/

/-- Each mnemonic is one write to CMD of the word of its command, and the assembler refuses `CRYPT n` with n > 16 and `SETUP_KEY
n` with n > 31 (30_encoding.md section 3). -/
def Obligations.MnemonicsAssembleToTheirCommands : Prop :=
  AsmLine.expand .reset = some [.write 4 0x00 (encode .reset)] ∧
  AsmLine.expand .nextBlock = some [.write 4 0x00 (encode .nextBlock)] ∧
  (∀ n : Nat, n ≤ 31 → AsmLine.expand (.setupKey n) = some [.write 4 0x00 (encode (.setupKey (BitVec.ofNat 5 n)))]) ∧
  (∀ n : Nat, n ≤ 16 → AsmLine.expand (.crypt n) = some [.write 4 0x00 (encode (.crypt (BitVec.ofNat 5 n)))]) ∧
  (∀ n : Nat, 31 < n → AsmLine.expand (.setupKey n) = none) ∧
  (∀ n : Nat, 16 < n → AsmLine.expand (.crypt n) = none)

/-- Performing LDKEY and LDDATA leaves exactly the sixteen bytes in KEY and in DATA and nothing else changed; RDKS with expected
bytes holds exactly when S is those bytes (30_encoding.md section 3; what a check records is the model's, log 2). -/
def Obligations.PseudoInstructionsMoveSixteenBytes : Prop :=
  ∀ (a : Bytes) (s : State) (h : Nat),
    (∃ p, AsmLine.expand (.ldKey a) = some p ∧
      performAll (p.map fun x => ⟨h, x⟩) s = .next { s with eng := { s.eng with KEY := a } }) ∧
    (∃ p, AsmLine.expand (.ldData a) = some p ∧
      performAll (p.map fun x => ⟨h, x⟩) s = .next { s with eng := { s.eng with DATA := a } }) ∧
    (∃ p s', AsmLine.expand (.rdKsCheck a) = some p ∧
      performAll (p.map fun x => ⟨h, x⟩) { s with reads := [] } = .next s' ∧ s'.eng = s.eng ∧
      (s'.checksHold = true ↔ s.eng.S = a))

/-- An access on a platform is performed by one engine whose window holds the address, and leaves every other engine's state as it
was (00_scope.md section 4, 20_memory.md section 3; the platform's routing is the model's, log 9, and so is that an address picks the
engine whose reset input is asserted, log 16). -/
def Obligations.EnginesAreIndependent : Prop :=
  ∀ (p p' : Platform) (host addr : Nat) (a : Access), Platform.access host addr a p = .next p' →
    ∃ (before after : Platform) (base : Nat) (s s' : State),
      p = before ++ (base, s) :: after ∧ p' = before ++ (base, s') :: after ∧
      base ≤ addr ∧ addr < base + 64 ∧
      performEvent ⟨host, a.atOffset (addr - base)⟩ s = .next s'

/-! ## The host's side at reset -/

/-- At reset no access is pending and no read has returned, and a step keeps that state. All three are the model's choice
(logs 1, 2 and 4). -/
def Obligations.NothingIsPendingAtReset : Prop :=
  State.reset.pending = [] ∧ State.reset.reads = [] ∧ step State.reset = .next State.reset
end

