-- ==== Sys2Proof/Laws/State.lean ====
section
/-! SUPPORT. The small lemmas of State and Engine: one per field per update, true by definition, so that no later proof unfolds
an update. -/

namespace Sys2Proof.Machine

@[simp] theorem Engine.withSession_X (e : Engine) (r : Session) : (e.withSession r).X = r.X := rfl
@[simp] theorem Engine.withSession_C (e : Engine) (r : Session) : (e.withSession r).C = r.C := rfl
@[simp] theorem Engine.withSession_b (e : Engine) (r : Session) : (e.withSession r).b = r.b := rfl
@[simp] theorem Engine.withSession_S (e : Engine) (r : Session) : (e.withSession r).S = e.S := rfl
@[simp] theorem Engine.withSession_ready (e : Engine) (r : Session) : (e.withSession r).ready = e.ready := rfl
@[simp] theorem Engine.withSession_ERR (e : Engine) (r : Session) : (e.withSession r).ERR = e.ERR := rfl
@[simp] theorem Engine.withSession_KEY (e : Engine) (r : Session) : (e.withSession r).KEY = e.KEY := rfl
@[simp] theorem Engine.withSession_DATA (e : Engine) (r : Session) : (e.withSession r).DATA = e.DATA := rfl
@[simp] theorem Engine.withSession_session (e : Engine) (r : Session) : (e.withSession r).session = r := rfl

@[simp] theorem Engine.withS_X (e : Engine) (v : Bytes) : (e.withS v).X = e.X := rfl
@[simp] theorem Engine.withS_C (e : Engine) (v : Bytes) : (e.withS v).C = e.C := rfl
@[simp] theorem Engine.withS_b (e : Engine) (v : Bytes) : (e.withS v).b = e.b := rfl
@[simp] theorem Engine.withS_S (e : Engine) (v : Bytes) : (e.withS v).S = v := rfl
@[simp] theorem Engine.withS_ready (e : Engine) (v : Bytes) : (e.withS v).ready = e.ready := rfl
@[simp] theorem Engine.withS_ERR (e : Engine) (v : Bytes) : (e.withS v).ERR = e.ERR := rfl
@[simp] theorem Engine.withS_KEY (e : Engine) (v : Bytes) : (e.withS v).KEY = e.KEY := rfl
@[simp] theorem Engine.withS_DATA (e : Engine) (v : Bytes) : (e.withS v).DATA = e.DATA := rfl
@[simp] theorem Engine.withS_session (e : Engine) (v : Bytes) : (e.withS v).session = e.session := rfl

@[simp] theorem Engine.withReady_X (e : Engine) (v : Bool) : (e.withReady v).X = e.X := rfl
@[simp] theorem Engine.withReady_C (e : Engine) (v : Bool) : (e.withReady v).C = e.C := rfl
@[simp] theorem Engine.withReady_b (e : Engine) (v : Bool) : (e.withReady v).b = e.b := rfl
@[simp] theorem Engine.withReady_S (e : Engine) (v : Bool) : (e.withReady v).S = e.S := rfl
@[simp] theorem Engine.withReady_ready (e : Engine) (v : Bool) : (e.withReady v).ready = v := rfl
@[simp] theorem Engine.withReady_ERR (e : Engine) (v : Bool) : (e.withReady v).ERR = e.ERR := rfl
@[simp] theorem Engine.withReady_KEY (e : Engine) (v : Bool) : (e.withReady v).KEY = e.KEY := rfl
@[simp] theorem Engine.withReady_DATA (e : Engine) (v : Bool) : (e.withReady v).DATA = e.DATA := rfl
@[simp] theorem Engine.withReady_session (e : Engine) (v : Bool) : (e.withReady v).session = e.session := rfl

@[simp] theorem Engine.withERR_X (e : Engine) (v : BitVec 2) : (e.withERR v).X = e.X := rfl
@[simp] theorem Engine.withERR_C (e : Engine) (v : BitVec 2) : (e.withERR v).C = e.C := rfl
@[simp] theorem Engine.withERR_b (e : Engine) (v : BitVec 2) : (e.withERR v).b = e.b := rfl
@[simp] theorem Engine.withERR_S (e : Engine) (v : BitVec 2) : (e.withERR v).S = e.S := rfl
@[simp] theorem Engine.withERR_ready (e : Engine) (v : BitVec 2) : (e.withERR v).ready = e.ready := rfl
@[simp] theorem Engine.withERR_ERR (e : Engine) (v : BitVec 2) : (e.withERR v).ERR = v := rfl
@[simp] theorem Engine.withERR_KEY (e : Engine) (v : BitVec 2) : (e.withERR v).KEY = e.KEY := rfl
@[simp] theorem Engine.withERR_DATA (e : Engine) (v : BitVec 2) : (e.withERR v).DATA = e.DATA := rfl
@[simp] theorem Engine.withERR_session (e : Engine) (v : BitVec 2) : (e.withERR v).session = e.session := rfl

@[simp] theorem Engine.withKEY_X (e : Engine) (v : Bytes) : (e.withKEY v).X = e.X := rfl
@[simp] theorem Engine.withKEY_C (e : Engine) (v : Bytes) : (e.withKEY v).C = e.C := rfl
@[simp] theorem Engine.withKEY_b (e : Engine) (v : Bytes) : (e.withKEY v).b = e.b := rfl
@[simp] theorem Engine.withKEY_S (e : Engine) (v : Bytes) : (e.withKEY v).S = e.S := rfl
@[simp] theorem Engine.withKEY_ready (e : Engine) (v : Bytes) : (e.withKEY v).ready = e.ready := rfl
@[simp] theorem Engine.withKEY_ERR (e : Engine) (v : Bytes) : (e.withKEY v).ERR = e.ERR := rfl
@[simp] theorem Engine.withKEY_KEY (e : Engine) (v : Bytes) : (e.withKEY v).KEY = v := rfl
@[simp] theorem Engine.withKEY_DATA (e : Engine) (v : Bytes) : (e.withKEY v).DATA = e.DATA := rfl
@[simp] theorem Engine.withKEY_session (e : Engine) (v : Bytes) : (e.withKEY v).session = e.session := rfl

@[simp] theorem Engine.withDATA_X (e : Engine) (v : Bytes) : (e.withDATA v).X = e.X := rfl
@[simp] theorem Engine.withDATA_C (e : Engine) (v : Bytes) : (e.withDATA v).C = e.C := rfl
@[simp] theorem Engine.withDATA_b (e : Engine) (v : Bytes) : (e.withDATA v).b = e.b := rfl
@[simp] theorem Engine.withDATA_S (e : Engine) (v : Bytes) : (e.withDATA v).S = e.S := rfl
@[simp] theorem Engine.withDATA_ready (e : Engine) (v : Bytes) : (e.withDATA v).ready = e.ready := rfl
@[simp] theorem Engine.withDATA_ERR (e : Engine) (v : Bytes) : (e.withDATA v).ERR = e.ERR := rfl
@[simp] theorem Engine.withDATA_KEY (e : Engine) (v : Bytes) : (e.withDATA v).KEY = e.KEY := rfl
@[simp] theorem Engine.withDATA_DATA (e : Engine) (v : Bytes) : (e.withDATA v).DATA = v := rfl
@[simp] theorem Engine.withDATA_session (e : Engine) (v : Bytes) : (e.withDATA v).session = e.session := rfl

@[simp] theorem Engine.session_X (e : Engine) : e.session.X = e.X := rfl
@[simp] theorem Engine.session_C (e : Engine) : e.session.C = e.C := rfl
@[simp] theorem Engine.session_b (e : Engine) : e.session.b = e.b := rfl

@[simp] theorem State.withEng_eng (s : State) (e : Engine) : (s.withEng e).eng = e := rfl
@[simp] theorem State.withEng_pending (s : State) (e : Engine) : (s.withEng e).pending = s.pending := rfl
@[simp] theorem State.withEng_reads (s : State) (e : Engine) : (s.withEng e).reads = s.reads := rfl

@[simp] theorem State.withPending_eng (s : State) (p : List HostEvent) : (s.withPending p).eng = s.eng := rfl
@[simp] theorem State.withPending_pending (s : State) (p : List HostEvent) : (s.withPending p).pending = p := rfl
@[simp] theorem State.withPending_reads (s : State) (p : List HostEvent) : (s.withPending p).reads = s.reads := rfl

@[simp] theorem State.withRead_eng (s : State) (r : ReadResult) : (s.withRead r).eng = s.eng := rfl
@[simp] theorem State.withRead_pending (s : State) (r : ReadResult) : (s.withRead r).pending = s.pending := rfl
@[simp] theorem State.withRead_reads (s : State) (r : ReadResult) : (s.withRead r).reads = s.reads ++ [r] := rfl

@[simp] theorem Engine.withKEY_withKEY (e : Engine) (v w : Bytes) : (e.withKEY v).withKEY w = e.withKEY w := rfl

@[simp] theorem Engine.withDATA_withDATA (e : Engine) (v w : Bytes) : (e.withDATA v).withDATA w = e.withDATA w := rfl

@[simp] theorem State.withEng_eng_self (s : State) : s.withEng s.eng = s := rfl

@[simp] theorem State.withEng_withEng (s : State) (e e' : Engine) : (s.withEng e).withEng e' = s.withEng e' := rfl

end Sys2Proof.Machine
end

