-- ==== Sys2Proof/Laws/Ops.lean ====
section
/-! SUPPORT. What each shared operation can do: raising an error, completing a command, sequencing, and the byte lanes. -/

namespace Sys2Proof.Machine

/-- Raising an error answers a next state that differs in ERR alone. -/
theorem raise_eq (err : EngineError) (s : State) : raise err s = .next (s.withEng (s.eng.withERR err.code)) := rfl

/-- A command that succeeds answers a next state with the given engine and ERR = 0. -/
theorem succeed_eq (e : Engine) (s : State) : succeed e s = .next (s.withEng (e.withERR 0)) := rfl

theorem EngineError.code_ne_zero (err : EngineError) : err.code ≠ 0 := by
  cases err <;> decide

@[simp] theorem andThen_next {α β : Type} (a : α) (f : α → Host.Outcome β Fault Refusal) :
    andThen (.next a) f = f a := rfl

/-- A sequence that answers next answered next at both of its parts. -/
theorem andThen_eq_next {α β : Type} {o : Host.Outcome α Fault Refusal} {f : α → Host.Outcome β Fault Refusal} {b : β}
    (h : andThen o f = .next b) : ∃ a, o = .next a ∧ f a = .next b := by
  cases o with
  | next a => exact ⟨a, rfl, h⟩
  | fault r => cases h
  | refused r => cases h

/-- Lane k of a little-endian word is its byte k. -/
theorem laneByte_wordOfBytes (b0 b1 b2 b3 : Byte) :
    laneByte (wordOfBytes b0 b1 b2 b3) 0 = b0 ∧ laneByte (wordOfBytes b0 b1 b2 b3) 1 = b1 ∧
    laneByte (wordOfBytes b0 b1 b2 b3) 2 = b2 ∧ laneByte (wordOfBytes b0 b1 b2 b3) 3 = b3 := by
  refine ⟨?_, ?_, ?_, ?_⟩ <;>
  · ext i hi
    simp only [laneByte, wordOfBytes, BitVec.getElem_extractLsb', BitVec.getLsbD_or, BitVec.getLsbD_shiftLeft,
      BitVec.getLsbD_setWidth]
    interval_cases i <;> simp

/-- A word is the little-endian word of its four lanes. -/
theorem wordOfBytes_laneByte (v : Word) :
    wordOfBytes (laneByte v 0) (laneByte v 1) (laneByte v 2) (laneByte v 3) = v := by
  ext i hi
  simp only [laneByte, wordOfBytes, BitVec.getElem_or, BitVec.getElem_shiftLeft, BitVec.getElem_setWidth,
    BitVec.getLsbD_extractLsb']
  interval_cases i <;> simp

/-- Byte j of a 16-byte register after a write of register w. -/
theorem getElem_putLanes (a : Bytes) (w : Fin 4) (v : Word) (j : Nat) (hj : j < 16) :
    (putLanes a w v)[j] = if j / 4 = w.val then laneByte v (j % 4) else a[j] := by
  simp [putLanes]

/-- Lane k of register w is byte 4w+k. -/
theorem laneByte_getLanes (a : Bytes) (w k : Fin 4) : laneByte (getLanes a w) k.val = a[4 * w.val + k.val] := by
  have h := laneByte_wordOfBytes (a[4 * w.val]) (a[4 * w.val + 1]) (a[4 * w.val + 2]) (a[4 * w.val + 3])
  match k with
  | 0 => exact h.1
  | 1 => exact h.2.1
  | 2 => exact h.2.2.1
  | 3 => exact h.2.2.2

/-- A register reads back what was written to it, and the other three are unchanged. -/
theorem getLanes_putLanes (a : Bytes) (w w' : Fin 4) (v : Word) :
    getLanes (putLanes a w v) w' = if w' = w then v else getLanes a w' := by
  have hw := w.isLt
  have hw' := w'.isLt
  unfold getLanes
  simp only [getElem_putLanes]
  have hd : ∀ k < 4, (4 * w'.val + k) / 4 = w'.val := by omega
  have hm : ∀ k < 4, (4 * w'.val + k) % 4 = k := by omega
  have h0 : 4 * w'.val / 4 = w'.val := by omega
  have h1 : 4 * w'.val % 4 = 0 := by omega
  rw [h0, h1, hd 1 (by omega), hd 2 (by omega), hd 3 (by omega), hm 1 (by omega), hm 2 (by omega), hm 3 (by omega)]
  split
  · next h => rw [if_pos (Fin.ext h)]; exact wordOfBytes_laneByte v
  · next h => rw [if_neg (fun e => h (congrArg Fin.val e))]

/-- Writing the four registers of `a` makes any 16-byte register equal to `a`. -/
theorem putLanes_all (a c : Bytes) :
    putLanes (putLanes (putLanes (putLanes c 0 (getLanes a 0)) 1 (getLanes a 1)) 2 (getLanes a 2)) 3 (getLanes a 3) = a := by
  refine Vector.ext fun j hj => ?_
  simp only [getElem_putLanes]
  have key : ∀ w : Fin 4, j / 4 = w.val → laneByte (getLanes a w) (j % 4) = a[j] := by
    intro w hw
    have := laneByte_getLanes a w ⟨j % 4, by omega⟩
    simp only at this
    rw [this]
    congr 1
    omega
  split
  · next h => exact key 3 h
  split
  · next h => exact key 2 h
  split
  · next h => exact key 1 h
  split
  · next h => exact key 0 h
  · next h3 h2 h1 h0 =>
    exfalso
    simp at h0 h1 h2 h3
    omega

/-- The four register words of a 16-byte register determine it. -/
theorem getLanes_injective (a c : Bytes) (h : ∀ w : Fin 4, getLanes a w = getLanes c w) : a = c := by
  have ha := putLanes_all a c
  rw [h 0, h 1, h 2, h 3, putLanes_all c c] at ha
  exact ha.symm

end Sys2Proof.Machine
end

