-- ==== Sys2Proof/Laws/Datapath.lean ====
section
/-! SUPPORT. What the datapath units compute, word by word and byte by byte. -/

namespace Sys2Proof.Machine

/-- The exact sum of one word of the chain, as a natural number: it needs 33 bits. -/
theorem wideSum_toNat (c a : Word) (k : Bit) : (wideSum c a k).toNat = c.toNat + a.toNat + k.toNat := by
  have hc := c.isLt
  have ha := a.isLt
  have hk := k.isLt
  simp only [wideSum, BitVec.toNat_add, BitVec.toNat_setWidth]
  omega

/-- The sum word and the carry out of one word of the chain. -/
theorem wideSum_split (c a : Word) (k : Bit) :
    c.toNat + a.toNat + k.toNat =
      ((wideSum c a k).extractLsb' 0 32).toNat + 2 ^ 32 * ((wideSum c a k).extractLsb' 32 1).toNat := by
  have hc := c.isLt
  have ha := a.isLt
  have hk := k.isLt
  simp only [BitVec.extractLsb'_toNat, wideSum_toNat, Nat.shiftRight_eq_div_pow]
  omega

@[simp] theorem carryInto_zero (C : Words) (b : Bit) : carryInto C b 0 = b := rfl

theorem carryInto_succ (C : Words) (b : Bit) (i : Nat) (hi : i < 8) :
    carryInto C b (i + 1) = (wideSum C[i] counterConst[i] (carryInto C b i)).extractLsb' 32 1 := by
  have hg : ∀ V : Words, V.getD i 0 = V[i] := fun V => by
    simp [Vector.getD, Array.getD, hi]
  rw [← hg, ← hg]
  rfl

theorem counterUpdate_snd (C : Words) (b : Bit) : (counterUpdate C b).2 = carryInto C b 8 := rfl

theorem getElem_counterUpdate (C : Words) (b : Bit) (i : Nat) (hi : i < 8) :
    (counterUpdate C b).1[i] = (wideSum C[i] counterConst[i] (carryInto C b i)).extractLsb' 0 32 := by
  simp [counterUpdate]

/-- One word of the carry chain, exactly (40_datapath.md R101). -/
theorem counterUpdate_word (C : Words) (b : Bit) (i : Nat) (hi : i < 8) :
    C[i].toNat + counterConst[i].toNat + (carryInto C b i).toNat =
      (counterUpdate C b).1[i].toNat + 2 ^ 32 * (carryInto C b (i + 1)).toNat := by
  rw [getElem_counterUpdate C b i hi, carryInto_succ C b i hi]
  exact wideSum_split _ _ _

theorem getElem_gOutputs (X C' : Words) (i : Nat) (hi : i < 8) : (gOutputs X C')[i] = gFunction X[i] C'[i] := by
  simp [gOutputs]

theorem getElem_block (X : Words) (j : Nat) (hj : j < 16) :
    (block X)[j] = halfByte ((extract X)[j / 2]) (j % 2) := by
  simp [block]

theorem getElem_xorCombine (D S : Bytes) (n j : Nat) (hj : j < 16) :
    (xorCombine D S n)[j] = if j < n then D[j] ^^^ S[j] else D[j] := by
  simp [xorCombine]

theorem getElem_couple (X C : Words) (i : Nat) (hi : i < 8) :
    (couple X C)[i] = C[i] ^^^ X[(i + 4) % 8] := by
  simp [couple]

/-- Steps add up. -/
theorem iterateStep_add (j k : Nat) (r : Session) : iterateStep (j + k) r = iterateStep k (iterateStep j r) := by
  induction j generalizing r with
  | zero => simp [iterateStep]
  | succ j ih => rw [Nat.succ_add]; exact ih (updateStep r)

theorem iterateStep_succ' (k : Nat) (r : Session) : iterateStep (k + 1) r = updateStep (iterateStep k r) :=
  iterateStep_add k 1 r

/-- Drawing a block: the session is stepped once, S is the block of the new X, and nothing else changes. -/
theorem drawBlock_eq (e : Engine) :
    drawBlock e = (e.withSession (updateStep e.session)).withS (block (updateStep e.session).X) := rfl

end Sys2Proof.Machine
end

