-- ==== Sys2Proof/Laws/PerInstr.lean ====
section
/-! SUPPORT. Facts about every command as syntax, one lemma per constructor. -/

namespace Sys2Proof

/-- The fields of a word made of three fields are those fields (30_encoding.md R80). -/
theorem cmdw_fields (rsv : BitVec 23) (len : BitVec 5) (opc : BitVec 4) :
    opcField (cmdw rsv len opc) = opc ∧ lenField (cmdw rsv len opc) = len ∧ rsvField (cmdw rsv len opc) = rsv := by
  refine ⟨?_, ?_, ?_⟩
  · ext i hi
    simp only [opcField, cmdw, BitVec.getElem_extractLsb', BitVec.getLsbD_append]
    simp [hi]
  · ext i hi
    simp only [lenField, cmdw, BitVec.getElem_extractLsb', BitVec.getLsbD_append]
    simp [hi, show ¬ 4 + i < 4 by omega]
  · ext i hi
    simp only [rsvField, cmdw, BitVec.getElem_extractLsb', BitVec.getLsbD_append]
    simp [hi, show ¬ 9 + i < 4 by omega, show ¬ 9 + i - 4 < 5 by omega, show 9 + i - 4 - 5 = i by omega]

/-- A word is made of its three fields (30_encoding.md R80). -/
theorem cmdw_of_fields (v : Word) : cmdw (rsvField v) (lenField v) (opcField v) = v := by
  apply BitVec.eq_of_getLsbD_eq
  intro i hi
  simp only [opcField, lenField, rsvField, cmdw, BitVec.getLsbD_append, BitVec.getLsbD_extractLsb']
  by_cases h4 : i < 4
  · simp [h4]
  · by_cases h9 : i - 4 < 5
    · simp [h4, h9, show 4 + (i - 4) = i by omega]
    · simp [h4, h9, show 9 + (i - 4 - 5) = i by omega, show i - 4 - 5 < 23 by omega]

namespace Laws.EncodedFields

/-- The word of a command carries its opcode and its LEN, and its reserved field is zero (30_encoding.md R80, R83). -/
def Statement (i : Instr) : Prop :=
  opcField (encode i) = i.opcode ∧ lenField (encode i) = i.len ∧ rsvField (encode i) = 0

theorem reset : Statement .reset := cmdw_fields 0 0 1

theorem setupKey (len : BitVec 5) : Statement (.setupKey len) := cmdw_fields 0 len 2

theorem nextBlock : Statement .nextBlock := cmdw_fields 0 0 3

theorem crypt (len : BitVec 5) : Statement (.crypt len) := cmdw_fields 0 len 4

end Laws.EncodedFields

end Sys2Proof
end

