-- ==== Sys2Proof/Laws/Step.lean ====
section
/-! SUPPORT. What a command, an access and a step can do, said once: the inversion lemmas that later proofs cite. -/

namespace Sys2Proof.Machine

/-! ## Decoding -/

/-- The decoder's answers, each with what it found in the word's fields. -/
theorem decode_cases (v : Word) :
    (rsvField v = 0 ∧ opcField v = 1 ∧ lenField v = 0 ∧ decode v = .instr .reset) ∨
    (rsvField v = 0 ∧ opcField v = 2 ∧ decode v = .instr (.setupKey (lenField v))) ∨
    (rsvField v = 0 ∧ opcField v = 3 ∧ lenField v = 0 ∧ decode v = .instr .nextBlock) ∨
    (rsvField v = 0 ∧ opcField v = 4 ∧ (lenField v).toNat ≤ 16 ∧ decode v = .instr (.crypt (lenField v))) ∨
    (legal v = false ∧ ∃ c, decode v = .illegal c) := by
  unfold decode legal
  by_cases h0 : rsvField v = 0#23
  · by_cases h1 : opcField v = 1#4
    · by_cases hl : lenField v = 0#5 <;> simp [h0, h1, hl]
    · by_cases h2 : opcField v = 2#4
      · simp [h0, h2]
      · by_cases h3 : opcField v = 3#4
        · by_cases hl : lenField v = 0#5 <;> simp [h0, h3, hl]
        · by_cases h4 : opcField v = 4#4
          · by_cases hl : (lenField v).toNat ≤ 16
            · simp [h0, h4, hl]
            · simp [h0, h4, hl]
          · simp [h0, h1, h2, h3, h4]
  · simp [h0]

/-- A word that is not legal decodes to no command. -/
theorem decode_of_not_legal (v : Word) (h : legal v = false) : ∃ c, decode v = .illegal c := by
  unfold legal at h
  obtain ⟨h0, h1, hl, -⟩ | ⟨h0, h1, -⟩ | ⟨h0, h1, hl, -⟩ | ⟨h0, h1, hl, -⟩ | ⟨-, hc⟩ := decode_cases v
  · simp [h0, h1, hl] at h
  · simp [h0, h1] at h
  · simp [h0, h1, hl] at h
  · simp [h0, h1, hl] at h
  · exact hc

/-- The decoder answers well-formed commands only. -/
theorem wf_of_decode {v : Word} {i : Instr} (h : decode v = .instr i) : i.wf = true := by
  obtain ⟨-, -, -, hd⟩ | ⟨-, -, hd⟩ | ⟨-, -, -, hd⟩ | ⟨-, -, hl, hd⟩ | ⟨-, c, hd⟩ := decode_cases v <;> rw [hd] at h <;> cases h
  · rfl
  · rfl
  · rfl
  · exact decide_eq_true hl

/-! ## Commands -/

theorem execReset_eq (s : State) : execReset s = .next (s.withEng Engine.reset) := rfl

theorem execSetupKey_short {n : BitVec 5} (h : n.toNat < 16) (s : State) :
    execSetupKey n s = .next (s.withEng (s.eng.withERR 1)) := if_pos h

theorem execSetupKey_long {n : BitVec 5} (h : 16 ≤ n.toNat) (s : State) :
    execSetupKey n s = .next (s.withEng
      ((((s.eng.withSession (keySchedule s.eng.KEY)).withReady true).withKEY zeroBytes).withERR 0)) :=
  if_neg (Nat.not_lt.mpr h)

theorem execNextBlock_ready {s : State} (h : s.eng.ready = true) :
    execNextBlock s = .next (s.withEng ((drawBlock s.eng).withERR 0)) := if_pos h

theorem execNextBlock_not_ready {s : State} (h : s.eng.ready = false) :
    execNextBlock s = .next (s.withEng (s.eng.withERR 2)) := if_neg (by simp [h])

theorem execCrypt_illegal {n : BitVec 5} (h : 16 < n.toNat) (s : State) :
    execCrypt n s = .next (s.withEng (s.eng.withERR 3)) := if_pos h

theorem execCrypt_not_ready {n : BitVec 5} {s : State} (hn : n.toNat ≤ 16) (h : s.eng.ready = false) :
    execCrypt n s = .next (s.withEng (s.eng.withERR 2)) := by
  rw [execCrypt, lenOperand, if_neg (Nat.not_lt.mpr hn), if_neg (by simp [h])]
  rfl

theorem execCrypt_zero {n : BitVec 5} {s : State} (hn : n.toNat = 0) (h : s.eng.ready = true) :
    execCrypt n s = .next (s.withEng (s.eng.withERR 0)) := by
  rw [execCrypt, lenOperand, if_neg (by omega), if_pos h, if_pos hn]
  rfl

theorem execCrypt_pos {n : BitVec 5} {s : State} (h1 : 1 ≤ n.toNat) (hn : n.toNat ≤ 16) (h : s.eng.ready = true) :
    execCrypt n s = .next (s.withEng (((drawBlock s.eng).withDATA
      (xorCombine s.eng.DATA (block (updateStep s.eng.session).X) n.toNat)).withERR 0)) := by
  rw [execCrypt, lenOperand, if_neg (by omega), if_pos h, if_neg (by omega)]
  rfl

/-- What a command does, with what it found: the inversion lemma of `exec`. Every command answers a next state that differs in
the engine alone. -/
theorem exec_cases (i : Instr) (s : State) :
    (i = .reset ∧ exec i s = .next (s.withEng Engine.reset)) ∨
    (∃ n, i = .setupKey n ∧ n.toNat < 16 ∧ exec i s = .next (s.withEng (s.eng.withERR 1))) ∨
    (∃ n, i = .setupKey n ∧ 16 ≤ n.toNat ∧
      exec i s = .next (s.withEng
        ((((s.eng.withSession (keySchedule s.eng.KEY)).withReady true).withKEY zeroBytes).withERR 0))) ∨
    (i = .nextBlock ∧ s.eng.ready = true ∧ exec i s = .next (s.withEng ((drawBlock s.eng).withERR 0))) ∨
    (i = .nextBlock ∧ s.eng.ready = false ∧ exec i s = .next (s.withEng (s.eng.withERR 2))) ∨
    (∃ n, i = .crypt n ∧ 16 < n.toNat ∧ exec i s = .next (s.withEng (s.eng.withERR 3))) ∨
    (∃ n, i = .crypt n ∧ n.toNat ≤ 16 ∧ s.eng.ready = false ∧ exec i s = .next (s.withEng (s.eng.withERR 2))) ∨
    (∃ n, i = .crypt n ∧ n.toNat = 0 ∧ s.eng.ready = true ∧ exec i s = .next (s.withEng (s.eng.withERR 0))) ∨
    (∃ n, i = .crypt n ∧ 1 ≤ n.toNat ∧ n.toNat ≤ 16 ∧ s.eng.ready = true ∧
      exec i s = .next (s.withEng (((drawBlock s.eng).withDATA
        (xorCombine s.eng.DATA (block (updateStep s.eng.session).X) n.toNat)).withERR 0))) := by
  cases i with
  | reset => exact .inl ⟨rfl, execReset_eq s⟩
  | setupKey n =>
    obtain h | h := Nat.lt_or_ge n.toNat 16
    · exact .inr (.inl ⟨n, rfl, h, execSetupKey_short h s⟩)
    · exact .inr (.inr (.inl ⟨n, rfl, h, execSetupKey_long h s⟩))
  | nextBlock =>
    cases h : s.eng.ready with
    | true => exact .inr (.inr (.inr (.inl ⟨rfl, rfl, execNextBlock_ready h⟩)))
    | false => exact .inr (.inr (.inr (.inr (.inl ⟨rfl, rfl, execNextBlock_not_ready h⟩))))
  | crypt n =>
    refine .inr (.inr (.inr (.inr (.inr ?_))))
    obtain hn | hn := Nat.lt_or_ge 16 n.toNat
    · exact .inl ⟨n, rfl, hn, execCrypt_illegal hn s⟩
    · cases h : s.eng.ready with
      | false => exact .inr (.inl ⟨n, rfl, hn, rfl, execCrypt_not_ready hn h⟩)
      | true =>
        obtain h0 | h1 := Nat.eq_zero_or_pos n.toNat
        · exact .inr (.inr (.inl ⟨n, rfl, h0, rfl, execCrypt_zero h0 h⟩))
        · exact .inr (.inr (.inr ⟨n, rfl, h1, hn, rfl, execCrypt_pos h1 hn h⟩))

/-- A command's effect on the engine depends on the engine alone, and it leaves the host's side as it is. -/
theorem exec_next (i : Instr) (e : Engine) :
    ∃ e', ∀ s : State, s.eng = e → exec i s = .next (s.withEng e') := by
  have key : ∀ s : State, s.eng = e → ∃ e', exec i ⟨e, [], []⟩ = .next (State.withEng ⟨e, [], []⟩ e') ∧
      exec i s = .next (s.withEng e') := by
    intro s hs
    subst hs
    cases i with
    | reset => exact ⟨_, execReset_eq _, execReset_eq s⟩
    | setupKey n =>
      obtain h | h := Nat.lt_or_ge n.toNat 16
      · exact ⟨_, execSetupKey_short h _, execSetupKey_short h s⟩
      · exact ⟨_, execSetupKey_long h _, execSetupKey_long h s⟩
    | nextBlock =>
      cases h : s.eng.ready with
      | true => exact ⟨_, execNextBlock_ready (s := ⟨s.eng, [], []⟩) h, execNextBlock_ready h⟩
      | false => exact ⟨_, execNextBlock_not_ready (s := ⟨s.eng, [], []⟩) h, execNextBlock_not_ready h⟩
    | crypt n =>
      obtain hn | hn := Nat.lt_or_ge 16 n.toNat
      · exact ⟨_, execCrypt_illegal hn _, execCrypt_illegal hn s⟩
      · cases h : s.eng.ready with
        | false => exact ⟨_, execCrypt_not_ready (s := ⟨s.eng, [], []⟩) hn h, execCrypt_not_ready hn h⟩
        | true =>
          obtain h0 | h1 := Nat.eq_zero_or_pos n.toNat
          · exact ⟨_, execCrypt_zero (s := ⟨s.eng, [], []⟩) h0 h, execCrypt_zero h0 h⟩
          · exact ⟨_, execCrypt_pos (s := ⟨s.eng, [], []⟩) h1 hn h, execCrypt_pos h1 hn h⟩
  obtain ⟨e', he', -⟩ := key ⟨e, [], []⟩ rfl
  refine ⟨e', fun s hs => ?_⟩
  obtain ⟨e'', h1, h2⟩ := key s hs
  rw [he'] at h1
  have h3 : e' = e'' := congrArg State.eng (Host.Outcome.next.inj h1)
  rw [h2, h3]

theorem execute_of_instr {v : Word} {i : Instr} (h : decode v = .instr i) (s : State) : execute v s = exec i s := by
  simp [execute, h]

theorem execute_of_illegal {v : Word} (h : legal v = false) (s : State) :
    execute v s = .next (s.withEng (s.eng.withERR 3)) := by
  obtain ⟨c, hc⟩ := decode_of_not_legal v h
  simp [execute, hc, execIllegal, raise, EngineError.code]

/-! ## Accesses -/

/-- A register write answers next, changes the engine alone, and what it makes of the engine depends on the engine alone. -/
theorem regWrite_next (r : WinReg) (v : Word) (e : Engine) :
    ∃ e', ∀ s : State, s.eng = e → regWrite r v s = .next (s.withEng e') := by
  cases r with
  | cmd =>
    unfold regWrite execute
    cases decode v with
    | instr i => exact exec_next i e
    | illegal c => exact ⟨e.withERR 3, fun s hs => by subst hs; rfl⟩
  | key w => exact ⟨e.withKEY (putLanes e.KEY w v), fun s hs => by subst hs; rfl⟩
  | data w => exact ⟨e.withDATA (putLanes e.DATA w v), fun s hs => by subst hs; rfl⟩
  | status => exact ⟨e, fun s hs => by subst hs; rfl⟩
  | reserved w => exact ⟨e, fun s hs => by subst hs; rfl⟩
  | ks w => exact ⟨e, fun s hs => by subst hs; rfl⟩

/-- A supported access answers next: the engine's new state and the values read depend on the engine alone, the accesses still
pending are left as they are, and one value comes back to the host that asked if the access is a read. -/
theorem performEvent_next (ev : HostEvent) (h : ev.access.supported = true) (e : Engine) :
    ∃ e' rs, (∀ s : State, s.eng = e → performEvent ev s = .next ⟨e', s.pending, s.reads ++ rs⟩) ∧
      rs.length = (match ev.access with | .read _ _ _ => 1 | _ => 0) ∧ ∀ r ∈ rs, r.host = ev.host := by
  obtain ⟨host, access⟩ := ev
  cases access with
  | write bytes off v =>
    simp only [Access.supported, Option.isSome_iff_exists] at h
    obtain ⟨r, hr⟩ := h
    obtain ⟨e', he'⟩ := regWrite_next r v e
    refine ⟨e', [], fun s hs => ?_, rfl, by simp⟩
    simp only [performEvent, hr, he' s hs, List.append_nil]
    rfl
  | read bytes off x =>
    simp only [Access.supported, Option.isSome_iff_exists] at h
    obtain ⟨r, hr⟩ := h
    refine ⟨e, [⟨host, off, regRead r e, x⟩], fun s hs => ?_, rfl, by simp⟩
    simp only [performEvent, hr]
    subst hs
    rfl
  | resetInput => exact ⟨Engine.reset, [], fun s _ => by simp [performEvent, State.withEng], rfl, by simp⟩

/-- An access that is not supported is refused, in every state alike. -/
theorem performEvent_unsupported (ev : HostEvent) (h : ev.access.supported = false) :
    ∃ bytes off, ∀ s : State, performEvent ev s = .refused (.unsupportedAccess bytes off) := by
  obtain ⟨host, access⟩ := ev
  cases access with
  | write bytes off v =>
    simp only [Access.supported, Option.isSome_eq_false_iff, Option.isNone_iff_eq_none] at h
    exact ⟨bytes, off, fun s => by simp [performEvent, h]⟩
  | read bytes off x =>
    simp only [Access.supported, Option.isSome_eq_false_iff, Option.isNone_iff_eq_none] at h
    exact ⟨bytes, off, fun s => by simp [performEvent, h]⟩
  | resetInput => simp [Access.supported] at h

/-- An access that answers next was supported. -/
theorem supported_of_performEvent {ev : HostEvent} {s s' : State} (h : performEvent ev s = .next s') :
    ev.access.supported = true := by
  by_contra hs
  obtain ⟨bytes, off, hr⟩ := performEvent_unsupported ev (by simpa using hs)
  rw [hr s] at h
  cases h

/-- The register at an offset lies at that offset. -/
theorem WinReg.offset_of_ofOffset {off : Nat} {r : WinReg} (h : WinReg.ofOffset off = some r) : r.offset = off := by
  unfold WinReg.ofOffset at h
  split at h <;> first | (cases h; rfl) | cases h

theorem WinReg.ofOffset_offset (r : WinReg) : WinReg.ofOffset r.offset = some r := by
  cases r with
  | cmd => rfl
  | status => rfl
  | reserved w => fin_cases w <;> rfl
  | key w => fin_cases w <;> rfl
  | data w => fin_cases w <;> rfl
  | ks w => fin_cases w <;> rfl

theorem accessReg_eq_some {bytes off : Nat} {r : WinReg} (h : accessReg bytes off = some r) : bytes = 4 ∧ off = r.offset := by
  unfold accessReg at h
  split at h
  · next hb => exact ⟨hb, (WinReg.offset_of_ofOffset h).symm⟩
  · cases h

theorem accessReg_offset (r : WinReg) : accessReg 4 r.offset = some r := WinReg.ofOffset_offset r

/-- What an access does: the inversion lemma of `performEvent`. It is the reset input, a command, an illegal command, a write of
KEYw, a write of DATAw, or one that leaves the engine as it is. -/
theorem performEvent_cases {ev : HostEvent} {s s' : State} (h : performEvent ev s = .next s') :
    (ev.access = .resetInput ∧ s'.eng = Engine.reset) ∨
    (∃ v i, ev.access = .write 4 0x00 v ∧ decode v = .instr i ∧ ev.access.command = some i ∧ exec i s = .next s') ∨
    (∃ v, ev.access = .write 4 0x00 v ∧ legal v = false ∧ ev.access.command = none ∧ s'.eng = s.eng.withERR 3) ∨
    (∃ (w : Fin 4) (v : Word), ev.access = .write 4 (0x10 + 4 * w.val) v ∧ ev.access.command = none ∧
      s'.eng = s.eng.withKEY (putLanes s.eng.KEY w v)) ∨
    (∃ (w : Fin 4) (v : Word), ev.access = .write 4 (0x20 + 4 * w.val) v ∧ ev.access.command = none ∧
      s'.eng = s.eng.withDATA (putLanes s.eng.DATA w v)) ∨
    (ev.access.command = none ∧ s'.eng = s.eng) := by
  obtain ⟨host, a⟩ := ev
  cases a with
  | write bytes off v =>
    simp only [performEvent] at h
    split at h
    · next r hr =>
      obtain ⟨rfl, rfl⟩ := accessReg_eq_some hr
      have hnone : r ≠ .cmd → (Access.write 4 r.offset v).command = none := fun hne => by
        simp [Access.command, hr, hne]
      cases r with
      | cmd =>
        obtain hl | hl := Bool.eq_false_or_eq_true (legal v)
        · obtain ⟨-, -, -, hd⟩ | ⟨-, -, hd⟩ | ⟨-, -, -, hd⟩ | ⟨-, -, -, hd⟩ | ⟨hn, -⟩ := decode_cases v
          case inr.inr.inr.inr => rw [hl] at hn; cases hn
          all_goals exact .inr (.inl ⟨v, _, rfl, hd, by simp [Access.command, hr, hd], by rw [← execute_of_instr hd]; exact h⟩)
        · obtain ⟨c, hc⟩ := decode_of_not_legal v hl
          have he : regWrite .cmd v s = _ := execute_of_illegal hl s
          rw [he] at h
          cases h
          exact .inr (.inr (.inl ⟨v, rfl, hl, by simp [Access.command, hr, hc], rfl⟩))
      | key w => cases h; exact .inr (.inr (.inr (.inl ⟨w, v, rfl, hnone (by simp), rfl⟩)))
      | data w => cases h; exact .inr (.inr (.inr (.inr (.inl ⟨w, v, rfl, hnone (by simp), rfl⟩))))
      | status => cases h; exact .inr (.inr (.inr (.inr (.inr ⟨hnone (by simp), rfl⟩))))
      | reserved w => cases h; exact .inr (.inr (.inr (.inr (.inr ⟨hnone (by simp), rfl⟩))))
      | ks w => cases h; exact .inr (.inr (.inr (.inr (.inr ⟨hnone (by simp), rfl⟩))))
    · cases h
  | read bytes off x =>
    simp only [performEvent] at h
    split at h
    · cases h; exact .inr (.inr (.inr (.inr (.inr ⟨rfl, rfl⟩))))
    · cases h
  | resetInput => cases h; exact .inl ⟨rfl, rfl⟩

/-! ## Sequences and runs -/

theorem performAll_append (p q : List HostEvent) (s : State) :
    performAll (p ++ q) s = andThen (performAll p s) (performAll q) := by
  induction p generalizing s with
  | nil => rfl
  | cons ev p ih =>
    simp only [List.cons_append, performAll]
    cases performEvent ev s with
    | next t => simpa using ih t
    | fault r => rfl
    | refused r => rfl

/-- A step with an access pending performs it. -/
theorem step_cons {s : State} {ev : HostEvent} {rest : List HostEvent} (h : s.pending = ev :: rest) :
    step s = performEvent ev (s.withPending rest) := by
  simp [step, h]

/-- A step with nothing pending keeps the state. -/
theorem step_nil {s : State} (h : s.pending = []) : step s = .next s := by
  simp [step, h]

/-- What a step does: it keeps the state, or performs the oldest pending access. -/
theorem step_cases {s s' : State} (h : step s = .next s') :
    (s.pending = [] ∧ s' = s) ∨
    (∃ ev rest, s.pending = ev :: rest ∧ performEvent ev (s.withPending rest) = .next s') := by
  cases hp : s.pending with
  | nil =>
    rw [step_nil hp] at h
    cases h
    exact .inl ⟨rfl, rfl⟩
  | cons ev rest =>
    rw [step_cons hp] at h
    exact .inr ⟨ev, rest, rfl, h⟩

theorem core_run_zero (s : State) : Host.Core.run Sys2Proof.core 0 s = .next s := rfl

theorem core_run_succ (k : Nat) (s : State) :
    Host.Core.run Sys2Proof.core (k + 1) s = andThen (step s) (Host.Core.run Sys2Proof.core k) := by
  refine (Host.Core.run.eq_2 Sys2Proof.core s k).trans ?_
  show _ = andThen (Sys2Proof.core.step s) _
  cases Sys2Proof.core.step s with
  | next t => rfl
  | fault r => rfl
  | refused r => rfl

end Sys2Proof.Machine
end

