-- ==== Sys2Proof/Laws/HostProtocol.lean ====
section
/-! SUPPORT. What the pieces of the host protocols do. -/

namespace Sys2Proof.Machine

/-- LDKEY puts the sixteen bytes in KEY and does nothing else. -/
theorem writeArray_key (a : Bytes) (s : State) : writeArray .key a s = .next (s.withEng (s.eng.withKEY a)) := by
  simp only [writeArray, regWrite, andThen_next, State.withEng_eng, State.withEng_withEng, Engine.withKEY_KEY,
    Engine.withKEY_withKEY, putLanes_all]

/-- LDDATA puts the sixteen bytes in DATA and does nothing else. -/
theorem writeArray_data (a : Bytes) (s : State) : writeArray .data a s = .next (s.withEng (s.eng.withDATA a)) := by
  simp only [writeArray, regWrite, andThen_next, State.withEng_eng, State.withEng_withEng, Engine.withDATA_DATA,
    Engine.withDATA_withDATA, putLanes_all]

/-- The bytes of the four register words of an array are the array's. -/
theorem ofFn_laneByte_getLanes (a : Bytes) :
    (Vector.ofFn fun j : Fin 16 => laneByte (getLanes a ⟨j.val / 4, by omega⟩) (j.val % 4)) = a := by
  refine Vector.ext fun j hj => ?_
  have h := laneByte_getLanes a ⟨j / 4, by omega⟩ ⟨j % 4, by omega⟩
  simp only at h
  simp only [Vector.getElem_ofFn, h]
  congr 1
  omega

theorem readArray_data (e : Engine) : readArray .data e = e.DATA := ofFn_laneByte_getLanes e.DATA

theorem readArray_ks (e : Engine) : readArray .ks e = e.S := ofFn_laneByte_getLanes e.S

/-- The ERR field of STATUS is ERR (10_state.md R31). -/
theorem statusERR_statusWord (e : Engine) : statusERR (statusWord e) = e.ERR := by
  have h : ∀ (r : Bool) (c : BitVec 2), statusERR ((c.setWidth 32 <<< 1) ||| (if r then 1 else 0)) = c := by decide
  exact h e.ready e.ERR

theorem readERR_eq (s : State) : readERR s = s.eng.ERR := statusERR_statusWord s.eng

/-- A command mnemonic runs its command. -/
theorem hostCommand_eq (i : Instr) (h : decode (encode i) = .instr i) (s : State) : hostCommand i s = exec i s :=
  execute_of_instr h s

end Sys2Proof.Machine
end

