-- ==== Sys2Proof/Tests/Slice0.lean ====
section
/-! SUPPORT. The model's own tests. Every expected value comes from the spec: the words of 30_encoding.md section 2, the worked
examples of the rules, and the vectors of 95_test_vectors.md (the section is named at each group). The last section holds a
witness for every statement of Obligations.lean that has hypotheses. -/

namespace Sys2Proof.Tests

open Sys2Proof.Machine

-- One theorem after another: a thread each would reserve more memory than the check allows.
set_option Elab.async false

/-! ## Helpers -/

/-- A ready engine with the given session and DATA, everything else as after reset. -/
def readyEngine (X C : Words) (b : Bit) (DATA : Bytes) : Engine :=
  { Engine.reset with X := X, C := C, b := b, ready := true, DATA := DATA }

/-- A machine with the given engine and nothing pending. -/
def onEngine (e : Engine) : State := ⟨e, [], []⟩

/-- A machine whose next access is the given one, issued by host 0. -/
def withAccess (e : Engine) (a : Access) : State := ⟨e, [⟨0, a⟩], []⟩

/-- The engine of the next state a step answers. -/
def engineAfter (o : Host.Outcome State Fault Refusal) : Option Engine :=
  match o with
  | .next t => some t.eng
  | .fault _ => none
  | .refused _ => none

/-- The values read by the end of a step. -/
def valuesAfter (o : Host.Outcome State Fault Refusal) : Option (List Word) :=
  match o with
  | .next t => some (t.reads.map (·.value))
  | .fault _ => none
  | .refused _ => none

/-- Whether a step was refused as an unsupported access. -/
def refusedAccess (o : Host.Outcome State Fault Refusal) : Bool :=
  match o with
  | .refused (.unsupportedAccess _ _) => true
  | .refused _ => false
  | .next _ => false
  | .fault _ => false

/-- The session after SETUP_KEY with the all-zero key (95_test_vectors.md section 3.1). -/
def zeroKeyX : Words :=
  #v[0x6E9E1D18, 0xF5A54E5C, 0xF8FD49C6, 0x9B94253F, 0xDCD14A79, 0x1F32FA20, 0xD2055921, 0x53F371D0]

def zeroKeyC : Words :=
  #v[0xE802074F, 0x5206296D, 0x01486DF2, 0x67203CE4, 0x23AACE55, 0x26E87A8F, 0xCC2E04F2, 0xD6A0F672]

/-- Row Z1 of 95_test_vectors.md section 1.2. -/
def blockZ1 : Bytes :=
  #v[0x02, 0xF7, 0x4A, 0x1C, 0x26, 0x45, 0x6B, 0xF5, 0xEC, 0xD6, 0xA5, 0x36, 0xF0, 0x54, 0x57, 0xB1]

/-- The key 00 01 ... 0F. -/
def countingKey : Bytes := #v[0, 1, 2, 3, 4, 5, 6, 7, 8, 9, 10, 11, 12, 13, 14, 15]

/-- A ready machine after SETUP_KEY with the all-zero key. -/
def readyState : State := onEngine (readyEngine zeroKeyX zeroKeyC 1 zeroBytes)

/-! ## Well-formedness -/

theorem test_wf_refuses_crypt_17 : Instr.wf (.crypt 17) = false := by decide
theorem test_wf_refuses_crypt_31 : Instr.wf (.crypt 31) = false := by decide
theorem test_wf_admits_the_limits :
    Instr.wf (.crypt 16) = true ∧ Instr.wf (.crypt 0) = true ∧ Instr.wf (.setupKey 31) = true := by decide

/-! ## Decoding: words written out from the bit patterns of 30_encoding.md section 2 (R87) and 95_test_vectors.md section 5.1 -/

theorem test_decode_reset : decode 0b00000000000000000000000000000001 = .instr .reset := by decide
theorem test_decode_setup_key_15 : decode 0b00000000000000000000000011110010 = .instr (.setupKey 15) := by decide
theorem test_decode_setup_key_31 : decode 0b00000000000000000000000111110010 = .instr (.setupKey 31) := by decide
theorem test_decode_next_block : decode 0b00000000000000000000000000000011 = .instr .nextBlock := by decide
theorem test_decode_crypt_1 : decode 0b00000000000000000000000000010100 = .instr (.crypt 1) := by decide
theorem test_decode_crypt_16 : decode 0b00000000000000000000000100000100 = .instr (.crypt 16) := by decide
theorem test_decode_illegal_words :
    [0x00000000, 0x00000005, 0x0000000F, 0x00000011, 0x00000013, 0x00000114, 0x000001F4, 0x00000202, 0x80000003].all
      (fun v => !legal v && match decode v with | .illegal _ => true | .instr _ => false) = true := by decide
theorem test_legal_boundary_words :
    [0x00000001, 0x00000002, 0x000001F2, 0x00000003, 0x00000004, 0x00000104].all legal = true := by decide
theorem test_encode_words :
    encode (.setupKey 16) = 0x00000102 ∧ encode (.crypt 16) = 0x00000104 ∧ encode .reset = 0x00000001 ∧
    encode .nextBlock = 0x00000003 := by decide
theorem test_table_words :
    decodeTableWord 32 0x00000001 = some .reset ∧ decodeTableWord 32 0x00000002 = some (.setupKey 0) ∧
    decodeTableWord 32 0x00000003 = some .nextBlock ∧ decodeTableWord 32 0x00000004 = some (.crypt 0) ∧
    decodeTableWord 32 0x00000114 = none ∧ decodeTableWord 32 (2 ^ 32) = none := by decide

/-! ## Datapath: 95_test_vectors.md section 2 -/

theorem test_counter_all_ones :
    counterUpdate (Vector.replicate 8 0xFFFFFFFF) 0 =
      (#v[0x4D34D34C, 0xD34D34D3, 0x34D34D34, 0x4D34D34D, 0xD34D34D3, 0x34D34D34, 0x4D34D34D, 0xD34D34D3], 1) := by
  decide +kernel
theorem test_counter_complement_ripples :
    counterUpdate #v[0xB2CB2CB2, 0x2CB2CB2C, 0xCB2CB2CB, 0xB2CB2CB2, 0x2CB2CB2C, 0xCB2CB2CB, 0xB2CB2CB2, 0x2CB2CB2C] 1 =
      (Vector.replicate 8 0, 1) := by decide +kernel
theorem test_counter_one_carry :
    counterUpdate #v[0xB2CB2CB3, 0, 0, 0, 0, 0, 0, 0] 0 =
      (#v[0x00000000, 0xD34D34D4, 0x34D34D34, 0x4D34D34D, 0xD34D34D3, 0x34D34D34, 0x4D34D34D, 0xD34D34D3], 0) := by
  decide +kernel
theorem test_g_vectors :
    gFunction 0x12345678 0x9ABCDEF0 = 0x2C213949 ∧ gFunction 0xFFFFFFFF 0 = 0xFFFFFFFF ∧
    gFunction 0xFFFFFFFE 0 = 0xFFFFFFF8 ∧ gFunction 0x80000000 0x80000000 = 0 ∧ gFunction 0 0x4D34D34D = 0xC0F8D72B := by
  decide
theorem test_rotations :
    rotl 0x12345678 8 = 0x34567812 ∧ rotl 0x12345678 16 = 0x56781234 ∧ rotl 0x80000001 8 = 0x00000180 := by decide
theorem test_next_state_mixed :
    nextState #v[0x01020304, 0x02040608, 0x0306090C, 0x04080C10, 0x050A0F14, 0x060C1218, 0x070E151C, 0x08101820] =
      #v[0x2E3E1222, 0x0C172229, 0x0C120C12, 0x0C151E1B, 0x1A261622, 0x1423322D, 0x283A2032, 0x1C31463F] := by
  decide +kernel
theorem test_step_from_zero :
    updateStep ⟨zeroWords, zeroWords, 0⟩ =
      ⟨#v[0xD1D9A5DF, 0x144F9F2A, 0x82C7A609, 0xB58C6651, 0xBC3D6C93, 0xEF19638D, 0xD20356CD, 0x787A3CCA],
        counterConst, 0⟩ := by decide +kernel
theorem test_block_x1_lanes :
    block #v[0, 0x11112222, 0, 0, 0, 0, 0, 0] = #v[0, 0, 0, 0, 0, 0, 0, 0, 0x11, 0x11, 0, 0, 0, 0, 0x22, 0x22] := by
  decide +kernel
theorem test_block_s67_lane :
    block #v[0, 0, 0xFFFF8000, 0, 0, 0x00001234, 0, 0] = #v[0, 0, 0, 0, 0, 0x80, 0xCB, 0xED, 0, 0, 0, 0, 0, 0, 0, 0] := by
  decide +kernel
theorem test_xor_combine_three :
    xorCombine zeroBytes blockZ1 3 = #v[0x02, 0xF7, 0x4A, 0, 0, 0, 0, 0, 0, 0, 0, 0, 0, 0, 0, 0] := by decide +kernel

/-! ## Key load: 95_test_vectors.md section 3.2 -/

theorem test_key_load_counting_key :
    keyLoadX countingKey =
      #v[0x03020100, 0x0D0C0B0A, 0x07060504, 0x01000F0E, 0x0B0A0908, 0x05040302, 0x0F0E0D0C, 0x09080706] ∧
    keyLoadC countingKey =
      #v[0x09080B0A, 0x03020504, 0x0D0C0F0E, 0x07060908, 0x01000302, 0x0B0A0D0C, 0x05040706, 0x0F0E0100] := by
  decide +kernel

/-! ## Commands: 95_test_vectors.md sections 3 to 5, at most two each -/

theorem test_reset_clears_a_ready_engine : engineAfter (exec .reset readyState) = some Engine.reset := by decide +kernel

/-- Section 3.1, and the starting carry: the engine's carry is 1 before. -/
theorem test_setup_key_zero_key_session :
    (engineAfter (exec (.setupKey 16) (onEngine (readyEngine counterConst counterConst 1 countingKey)))).map
      (fun e => (e.session, e.ready, e.KEY, e.DATA)) =
      some (⟨zeroKeyX, zeroKeyC, 1⟩, true, zeroBytes, countingKey) := by decide +kernel

/-- Section 3.2, by a step that fetches the command word. -/
theorem test_setup_key_counting_key_session :
    (engineAfter (step (State.withFetchWord (onEngine (Engine.reset.withKEY countingKey)) 32 0x000001F2))).map
      (fun e => (e.session, e.ERR, e.KEY)) =
      some (⟨#v[0xA31515F8, 0x5DFD3AC6, 0x33CD6AD2, 0x4BD778E5, 0x89708269, 0xD93095C1, 0x5E495F60, 0xC197863A],
        #v[0xB4ABDA29, 0x89064D90, 0xBE101C81, 0xFA4ED006, 0xED21C3B7, 0x83AA7B19, 0x0A1A3EE8, 0x1795ACA8], 1⟩,
        0, zeroBytes) := by decide +kernel

/-- Row Z1 and the state after block 1 of section 4.1. -/
theorem test_next_block_first_zero_key_block :
    (engineAfter (exec .nextBlock readyState)).map (fun e => (e.S, e.session)) =
      some (blockZ1,
        ⟨#v[0xB572E827, 0x7F2DDA66, 0x4303151B, 0xFCABA938, 0x8F00A9C1, 0x1F25B668, 0x6B31A85B, 0x503DB9A5],
        #v[0x3536DA9D, 0x25535E41, 0x361BBB27, 0xB4551031, 0xF6F80328, 0x5BBBC7C3, 0x1962D83F, 0xA9EE2B46], 1⟩) := by
  decide +kernel

/-- Block 1 of the key 00 01 ... 0F leaves b = 0: a step can clear the carry (section 4.2). -/
theorem test_next_block_can_clear_the_carry :
    (engineAfter (exec .nextBlock (onEngine (readyEngine
      #v[0xA31515F8, 0x5DFD3AC6, 0x33CD6AD2, 0x4BD778E5, 0x89708269, 0xD93095C1, 0x5E495F60, 0xC197863A]
      #v[0xB4ABDA29, 0x89064D90, 0xBE101C81, 0xFA4ED006, 0xED21C3B7, 0x83AA7B19, 0x0A1A3EE8, 0x1795ACA8] 1 zeroBytes)))).map
      (fun e => (e.S, e.b)) =
      some (#v[0x08, 0x40, 0x4F, 0x23, 0x2B, 0xF0, 0x02, 0x17, 0x5A, 0xAF, 0x97, 0xE9, 0x2E, 0x6E, 0x5F, 0xE5], 0) := by
  decide +kernel

/-- Section 4.3, CRYPT 15. -/
theorem test_crypt_15 :
    (engineAfter (exec (.crypt 15) readyState)).map (fun e => (e.DATA, e.S)) =
      some (#v[0x02, 0xF7, 0x4A, 0x1C, 0x26, 0x45, 0x6B, 0xF5, 0xEC, 0xD6, 0xA5, 0x36, 0xF0, 0x54, 0x57, 0x00], blockZ1) := by
  decide +kernel

/-- Section 4.4: CRYPT 0 on a reset engine gives STATUS = 0x00000004. -/
theorem test_crypt_0_checks_readiness :
    (engineAfter (step (State.withFetchWord State.reset 32 0x00000004))).map statusWord = some 0x00000004 := by decide

/-- Section 5.1 on a ready engine: STATUS = 0x00000007, nothing else. -/
theorem test_illegal_word_on_ready_engine :
    engineAfter (step (State.withFetchWord readyState 32 0x00000114)) = some (readyState.eng.withERR 3) ∧
    statusWord (readyState.eng.withERR 3) = 0x00000007 := by decide +kernel

/-! ## Register accesses: 95_test_vectors.md section 5.3 -/

theorem test_write_key0_lanes :
    (engineAfter (step (withAccess Engine.reset (.write 4 0x10 0x03020100)))).map (·.KEY) =
      some #v[0, 1, 2, 3, 0, 0, 0, 0, 0, 0, 0, 0, 0, 0, 0, 0] := by decide +kernel
theorem test_write_data2_reads_back :
    (engineAfter (step (withAccess Engine.reset (.write 4 0x28 0xDDCCBBAA)))).map (fun e => (regRead (.data 2) e, e.DATA[8])) =
      some (0xDDCCBBAA, 0xAA) := by decide +kernel
theorem test_read_ks0_of_block_z1 :
    valuesAfter (step (withAccess (Engine.reset.withS blockZ1) (.read 4 0x30 none))) = some [0x1C4AF702] := by decide +kernel
theorem test_read_key0_is_zero :
    valuesAfter (step (withAccess (Engine.reset.withKEY countingKey) (.read 4 0x10 none))) = some [0] := by decide +kernel
theorem test_unsupported_accesses_refused :
    refusedAccess (step (withAccess Engine.reset (.read 2 0x20 none))) = true ∧
    refusedAccess (step (withAccess Engine.reset (.write 1 0x20 0))) = true ∧
    refusedAccess (step (withAccess Engine.reset (.read 4 0x22 none))) = true ∧
    refusedAccess (step (withAccess Engine.reset (.write 8 0x20 0))) = true ∧
    refusedAccess (step (withAccess Engine.reset (.read 4 0x40 none))) = true := by decide

/-! ## Assembly text: lines of 95_test_vectors.md section 6 -/

theorem test_asm_commands_and_checks :
    assembleText "        SETUP_KEY 16              ; WR CMD, 0x00000102\n\n RDSTATUS =0x00000001\nRD KS0, =0x1C4AF702".toList =
      some [.write 4 0x00 0x00000102, .read 4 0x04 (some 1), .read 4 0x30 (some 0x1C4AF702)] := by decide +kernel
theorem test_asm_ldkey :
    assembleText "LDKEY 00,01,02,03,04,05,06,07,08,09,0A,0B,0C,0D,0E,0F".toList =
      some [.write 4 0x10 0x03020100, .write 4 0x14 0x07060504, .write 4 0x18 0x0B0A0908, .write 4 0x1C 0x0F0E0D0C] := by
  decide +kernel
theorem test_asm_literals :
    hexLiteral "0x8000AF09".toList = some 0x8000AF09 ∧ hexLiteral "0x1G".toList = none ∧ decLiteral "16".toList = some 16 ∧
    decLiteral "1A".toList = none ∧ byteLiteral "b1".toList = some 0xB1 := by decide +kernel
theorem test_asm_refusals :
    assembleText "CRYPT 17".toList = none ∧ assembleText "SETUP_KEY 32".toList = none ∧
    assembleText "RESET 0".toList = none ∧ assembleText "HALT".toList = none := by decide +kernel

/-! ## Witnesses: a state and operands that meet each statement's hypotheses -/

theorem witness_SetupKeyChecksLengthThenRunsSchedule :
    (15 : BitVec 5).toNat < 16 ∧ (0 : BitVec 5).toNat < 16 ∧ 16 ≤ (16 : BitVec 5).toNat ∧ 16 ≤ (31 : BitVec 5).toNat := by
  decide
theorem witness_SessionDependsOnKeyAlone :
    16 ≤ (16 : BitVec 5).toNat ∧ 16 ≤ (31 : BitVec 5).toNat ∧ State.reset.eng.KEY = readyState.eng.KEY ∧
    State.reset.eng.X ≠ readyState.eng.X := by decide +kernel
theorem witness_SecondSetupUsesZeroKey : 16 ≤ (16 : BitVec 5).toNat ∧ 16 ≤ (31 : BitVec 5).toNat := by decide
theorem witness_NextBlockDrawsOneBlock : readyState.eng.ready = true ∧ State.reset.eng.ready = false := by decide
theorem witness_CryptCombinesOneBlock :
    (readyState.eng.ready = true ∧ (0 : BitVec 5).toNat ≤ 16 ∧ (0 : BitVec 5).toNat = 0) ∧
    ((1 : BitVec 5).toNat ≤ 16 ∧ 1 ≤ (1 : BitVec 5).toNat) ∧ ((16 : BitVec 5).toNat ≤ 16 ∧ 1 ≤ (16 : BitVec 5).toNat) ∧
    State.reset.eng.ready = false := by decide
theorem witness_NotReadyCommandsOnlySetErr :
    State.reset.eng.ready = false ∧ (0 : BitVec 5).toNat ≤ 16 ∧ (16 : BitVec 5).toNat ≤ 16 ∧
    (∃ s', performEvent ⟨0, .resetInput⟩ readyState = .next s') ∧
    ∃ s', performEvent ⟨0, .write 4 0x00 0x00000001⟩ readyState = .next s' := ⟨rfl, by decide, by decide, ⟨_, rfl⟩, ⟨_, rfl⟩⟩
theorem witness_CryptKeepsNoBlockOffset :
    readyState.eng.ready = true ∧ 1 ≤ (16 : BitVec 5).toNat ∧ (16 : BitVec 5).toNat ≤ 16 ∧ 1 ≤ (1 : BitVec 5).toNat := by decide

/-- A program that draws two blocks, with accesses between that draw none. -/
def drawingProgram : List HostEvent :=
  [⟨0, .write 4 0x20 0xDDCCBBAA⟩, ⟨0, .write 4 0x00 0x00000014⟩, ⟨0, .read 4 0x30 none⟩, ⟨0, .write 4 0x00 0x00000004⟩,
    ⟨0, .write 4 0x00 0x00000002⟩, ⟨0, .write 4 0x00 0x00000003⟩]

theorem witness_BlocksOfSessionFollowTheStep :
    readyState.eng.ready = true ∧ (∀ ev ∈ drawingProgram, ev.access.supported = true ∧ ev.access.keepsSession = true) ∧
    blocksDrawn drawingProgram = 2 ∧ blocksDrawn [] = 0 := by decide +kernel
theorem witness_DecodeAndEncodeAgree :
    Instr.wf (.crypt 16) = true ∧ Instr.wf .reset = true ∧ decode 0x00000104 = .instr (.crypt 16) := by decide
theorem witness_IllegalWordsOnlySetErr :
    [0x00000000, 0x00000005, 0x00000201, 0x00000011, 0x00000013, 0x00000114].all (fun v => legal v == false) = true ∧
    legal 0x00000104 = true := by decide
theorem witness_ErrorsArePrecise :
    ∃ s', execute 0x00000003 State.reset = .next s' ∧ s'.eng.ERR ≠ 0 := ⟨_, rfl, by decide⟩
theorem witness_StepRunsTheDecodedCommand :
    (State.withFetchWord State.reset 32 0x00000102).pending = ⟨0, .write 4 0x00 0x00000102⟩ :: [] ∧
    decode 0x00000102 = .instr (.setupKey 16) := by decide
theorem witness_SupportedProgramsEnd :
    ({ readyState with pending := drawingProgram } : State).supported = true := by decide +kernel
theorem witness_StepKeepsEachHostsOrder :
    ∃ s', step ⟨Engine.reset, [⟨0, .read 4 0x04 none⟩, ⟨1, .read 4 0x20 none⟩], []⟩ = .next s' ∧
      s'.programOf 1 = [⟨1, .read 4 0x20 none⟩] ∧ (1 : Nat) ≠ 0 := ⟨_, rfl, by decide, by decide⟩
theorem witness_StepKeepsReadiness :
    State.reset.inv = true ∧ (∃ s', step (State.withFetchWord State.reset 32 0x00000102) = .next s') ∧
    ({ Engine.reset with b := 1 } : Engine).inv = false := ⟨by decide, ⟨_, rfl⟩, by decide⟩
theorem witness_ModeTransitions :
    (∃ s', performEvent ⟨0, .write 4 0x00 0x00000102⟩ State.reset = .next s' ∧ State.reset.eng.ready = false ∧
      s'.eng.ready = true) ∧
    (∃ s', performEvent ⟨0, .write 4 0x00 0x00000001⟩ readyState = .next s' ∧ readyState.eng.ready = true ∧
      s'.eng.ready = false) ∧
    (∃ s', performEvent ⟨0, .resetInput⟩ readyState = .next s' ∧ s'.eng.ready = false) ∧ 16 ≤ (16 : BitVec 5).toNat :=
  ⟨⟨_, rfl, rfl, rfl⟩, ⟨_, rfl, rfl, rfl⟩, ⟨_, rfl, rfl⟩, by decide⟩
theorem witness_WhatChangesTheSession :
    ∃ s', performEvent ⟨0, .write 4 0x00 0x00000001⟩ readyState = .next s' ∧ s'.eng.session ≠ readyState.eng.session ∧
      ∃ t, performEvent ⟨0, .resetInput⟩ (onEngine (Engine.reset.withS blockZ1)) = .next t ∧ t.eng.S ≠ blockZ1 :=
  ⟨_, rfl, by decide +kernel, _, rfl, by decide +kernel⟩
theorem witness_WhatChangesTheInterfaceState :
    (∃ s', performEvent ⟨0, .write 4 0x00 0x00000000⟩ readyState = .next s' ∧ s'.eng.ERR ≠ readyState.eng.ERR) ∧
    (∃ s', performEvent ⟨0, .write 4 0x1C 0xFF000000⟩ readyState = .next s' ∧ s'.eng.KEY ≠ readyState.eng.KEY) ∧
    ∃ s', performEvent ⟨0, .write 4 0x2C 0xFF000000⟩ readyState = .next s' ∧
      s'.eng.DATA[(15 : Fin 16)] ≠ readyState.eng.DATA[(15 : Fin 16)] :=
  ⟨⟨_, rfl, by decide +kernel⟩, ⟨_, rfl, by decide +kernel⟩, ⟨_, rfl, by decide +kernel⟩⟩
theorem witness_DataReadsBackWhatWasWritten : WinReg.data 1 ≠ .data 0 ∧ WinReg.status ≠ .data 3 := by decide
theorem witness_RegWriteByOffset : (0x04 : Nat) ∈ [0x04, 0x08, 0x0C, 0x30, 0x34, 0x38, 0x3C] := by decide
theorem witness_RegReadByOffset : (0x1C : Nat) ∈ [0x00, 0x08, 0x0C, 0x10, 0x14, 0x18, 0x1C] := by decide
theorem witness_UnsupportedAccessesAreRefused :
    (2 ≠ 4 ∨ 0x20 % 4 ≠ 0 ∨ 0x3F < 0x20) ∧ (4 ≠ 4 ∨ 0x22 % 4 ≠ 0 ∨ 0x3F < 0x22) ∧ (4 ≠ 4 ∨ 0x40 % 4 ≠ 0 ∨ 0x3F < 0x40) ∧
    ¬(4 ≠ 4 ∨ 0x3C % 4 ≠ 0 ∨ 0x3F < 0x3C) ∧ ¬(4 ≠ 4 ∨ 0 % 4 ≠ 0 ∨ 0x3F < 0) := by decide
theorem witness_RepeatedAccesses :
    (∃ s', performEvent ⟨0, .read 4 0x30 none⟩ readyState = .next s') ∧ readyState.eng.ready = true := ⟨⟨_, rfl⟩, rfl⟩
theorem witness_ReadsHideTheSessionAndKey :
    let e := readyState.eng
    let e' : Engine := { e with X := zeroWords, C := zeroWords, b := 0, KEY := countingKey }
    e.S = e'.S ∧ e.DATA = e'.DATA ∧ e.ready = e'.ready ∧ e.ERR = e'.ERR ∧ e ≠ e' := by decide +kernel
theorem witness_XorCombinerLanes : (0 : Nat) ≤ 16 ∧ (16 : Nat) ≤ 16 ∧ zeroBytes[(15 : Fin 16)] = 0 := by decide
theorem witness_HostSetupKeyOutcomes :
    ([] : List Byte).length < 16 ∧ (List.replicate 15 (0 : Byte)).length < 16 ∧ 16 ≤ (List.replicate 16 (0 : Byte)).length := by
  decide
theorem witness_HostCryptCombinesTheKeystream :
    readyState.eng.ready = true ∧ 16 < (List.replicate 17 (0 : Byte)).length := by decide
theorem witness_HostCryptFailsUntilSetup : State.reset.eng.ready = false := rfl
theorem witness_DecryptionUndoesEncryption :
    readyState.eng.ready = true ∧ (readyState.withEng (readyState.eng.withDATA blockZ1)).eng.ready = true ∧
    (readyState.withEng (readyState.eng.withDATA blockZ1)).eng.session = readyState.eng.session := ⟨rfl, rfl, rfl⟩
theorem witness_SplittingAtBlocksChangesNothing :
    readyState.eng.ready = true ∧ (List.replicate 32 (0 : Byte)).length % 16 = 0 ∧ ([] : List Byte).length % 16 = 0 := by decide
theorem witness_HostNextBlockOutcomes :
    readyState.eng.ready = true ∧ State.reset.eng.ready = false ∧ State.reset.inv = true := by decide
theorem witness_MnemonicsAssembleToTheirCommands : 31 ≤ 31 ∧ 16 ≤ 16 ∧ 31 < 32 ∧ 16 < 17 := by decide
theorem witness_EnginesAreIndependent :
    ∃ p', Platform.access 0 0x1044 (.write 4 0 0x00000001) (Platform.powerOn [0x1000, 0x1040]) = .next p' := ⟨_, rfl⟩

end Sys2Proof.Tests
end

section
/-! PROOFS. The statements about the engine's state as 10_state.md gives it: what a reset clears (R35), when the readiness
flag changes (R26, R36), and what STATUS shows (R31). -/

namespace Sys2Proof

/-! ## Command words -/

/-- The decoder reads a well-formed command back from its word. -/
theorem decode_encode_of_wf {i : Instr} (h : i.wf = true) : decode (encode i) = .instr i := by
  cases i with
  | reset => rfl
  | setupKey n =>
    obtain ⟨hopc, hlen, hrsv⟩ := Laws.EncodedFields.setupKey n
    simp [decode, hopc, hlen, hrsv, Instr.opcode, Instr.len]
  | nextBlock => rfl
  | crypt n =>
    obtain ⟨hopc, hlen, hrsv⟩ := Laws.EncodedFields.crypt n
    have hn : n.toNat ≤ 16 := of_decide_eq_true h
    simp [decode, hopc, hlen, hrsv, hn, Instr.opcode, Instr.len]

/-- A word that decodes to a command is that command's word: OPC and LEN determine it, as RSV is zero (R87). -/
theorem encode_of_decode {v : Word} {i : Instr} (h : decode v = .instr i) : encode i = v := by
  have hv := cmdw_of_fields v
  obtain ⟨hr, ho, hl, hd⟩ | ⟨hr, ho, hd⟩ | ⟨hr, ho, hl, hd⟩ | ⟨hr, ho, -, hd⟩ | ⟨-, c, hd⟩ := Machine.decode_cases v <;>
    rw [hd] at h <;> cases h
  · rwa [hr, ho, hl] at hv
  · rwa [hr, ho] at hv
  · rwa [hr, ho, hl] at hv
  · rwa [hr, ho] at hv

end Sys2Proof

namespace Sys2Proof.Machine

/-- A write of a command's word to CMD performs the command (20_memory.md R55, 43_control.md R192). -/
theorem performEvent_write_encode {i : Instr} (hi : i.wf = true) (h : Nat) (s : State) :
    performEvent ⟨h, .write 4 0x00 (encode i)⟩ s = exec i s :=
  execute_of_instr (decode_encode_of_wf hi) s

/-! ## The readiness flag -/

/-- What a command does to ready: RESET clears it, SETUP_KEY with LEN >= 16 sets it, every other command keeps it. -/
theorem exec_ready_cases {i : Instr} {s s' : State} (h : exec i s = .next s') :
    (i = .reset ∧ s'.eng.ready = false) ∨
    (∃ n : BitVec 5, i = .setupKey n ∧ 16 ≤ n.toNat ∧ s'.eng.ready = true) ∨
    s'.eng.ready = s.eng.ready := by
  obtain ⟨hi, he⟩ | ⟨n, -, -, he⟩ | ⟨n, hi, hn, he⟩ | ⟨-, -, he⟩ | ⟨-, -, he⟩ | ⟨n, -, -, he⟩ | ⟨n, -, -, -, he⟩ |
    ⟨n, -, -, -, he⟩ | ⟨n, -, -, -, -, he⟩ := exec_cases i s <;> rw [he] at h <;> cases h
  case inl => exact .inl ⟨hi, rfl⟩
  case inr.inr.inl => exact .inr (.inl ⟨n, hi, hn, rfl⟩)
  all_goals exact .inr (.inr rfl)

/-- What an access does to ready: the reset input and the word of RESET clear it, the word of a SETUP_KEY with LEN >= 16 sets it,
every other access keeps it (R36). -/
theorem performEvent_ready_cases {ev : HostEvent} {s s' : State} (h : performEvent ev s = .next s') :
    ((ev.access = .resetInput ∨ ev.access = .write 4 0x00 (encode .reset)) ∧ s'.eng.ready = false) ∨
    (∃ n : BitVec 5, ev.access = .write 4 0x00 (encode (.setupKey n)) ∧ 16 ≤ n.toNat ∧ s'.eng.ready = true) ∨
    s'.eng.ready = s.eng.ready := by
  obtain ⟨ha, he⟩ | ⟨v, i, ha, hd, -, hx⟩ | ⟨v, -, -, -, he⟩ | ⟨w, v, -, -, he⟩ | ⟨w, v, -, -, he⟩ | ⟨-, he⟩ :=
    performEvent_cases h
  case inr.inl =>
    obtain rfl := encode_of_decode hd
    obtain ⟨rfl, hr⟩ | ⟨n, rfl, hn, hr⟩ | hr := exec_ready_cases hx
    · exact .inl ⟨.inr ha, hr⟩
    · exact .inr (.inl ⟨n, ha, hn, hr⟩)
    · exact .inr (.inr hr)
  case inl => exact .inl ⟨.inl ha, by rw [he]; rfl⟩
  all_goals exact .inr (.inr (by simp [he]))

/-! ## The STATUS word -/

theorem statusWord_bit_zero (e : Engine) : (statusWord e).getLsbD 0 = e.ready := by
  cases h : e.ready <;> simp [statusWord, h]

theorem statusWord_high (e : Engine) : (statusWord e).extractLsb' 3 29 = 0 := by
  have h : ∀ (r : Bool) (c : BitVec 2), ((c.setWidth 32 <<< 1) ||| (if r then (1 : Word) else 0)).extractLsb' 3 29 = 0 := by
    decide
  exact h e.ready e.ERR

/-! ## The statements -/

/-- Settles O26: the accesses that change ready, from `performEvent_ready_cases`, and the three events that set or clear it. -/
theorem modeTransitions : Obligations.ModeTransitions := by
  refine ⟨fun ev s s' h h0 h1 => ?becomesTrue, fun ev s s' h h1 h0 => ?becomesFalse, fun h n s hn => ?setupKey,
    fun h s => ?reset, fun h s => ⟨_, rfl, rfl⟩, rfl, statusWord_bit_zero⟩
  case becomesTrue =>
    obtain ⟨-, hr⟩ | ⟨n, ha, hn, -⟩ | hr := performEvent_ready_cases h
    · simp [hr] at h1
    · exact ⟨n, hn, ha⟩
    · simp [hr, h0] at h1
  case becomesFalse =>
    obtain ⟨ha, -⟩ | ⟨n, -, -, hr⟩ | hr := performEvent_ready_cases h
    · exact ha
    · simp [hr] at h0
    · simp [hr, h1] at h0
  case setupKey => exact ⟨_, (performEvent_write_encode rfl h s).trans (execSetupKey_long hn s), rfl⟩
  case reset => exact ⟨_, (performEvent_write_encode rfl h s).trans (execReset_eq s), rfl⟩

/-- Settles O1: `Engine.reset` is the all-zero engine, and RESET and the reset input both put it in place of the old one. -/
theorem resetClearsEveryStateElement : Obligations.ResetClearsEveryStateElement :=
  ⟨rfl, decode_encode_of_wf (i := .reset) rfl, execReset_eq, fun _ _ => rfl⟩

/-- Settles O33: the three fields of the STATUS word, its value at reset, and R53's ignored write. -/
theorem statusFields : Obligations.StatusFields :=
  ⟨fun e => ⟨statusWord_bit_zero e, statusERR_statusWord e, statusWord_high e⟩, rfl, fun _ _ _ => rfl⟩

end Sys2Proof.Machine
end

section
/-! PROOFS. The statements about the register window (20_memory.md): which accesses it supports (R54), what a write does (R55),
what a read returns (R56), and the byte lanes (R51, R52). -/

namespace Sys2Proof.Machine

/-! ## The supported accesses -/

theorem WinReg.offset_aligned_in_window (r : WinReg) : r.offset % 4 = 0 ∧ r.offset ≤ 0x3F := by
  cases r
  case cmd => decide
  case status => decide
  all_goals
    simp only [WinReg.offset]
    omega

/-- Every aligned offset of the window has a register: 20_memory.md R50's map leaves no gap. -/
theorem WinReg.ofOffset_isSome {off : Nat} (ha : off % 4 = 0) (hw : off ≤ 0x3F) : (WinReg.ofOffset off).isSome = true := by
  have h : ∀ k < 16, (WinReg.ofOffset (4 * k)).isSome = true := by decide
  have hk : 4 * (off / 4) = off := by omega
  simpa [hk] using h (off / 4) (by omega)

/-- An access reaches a register exactly when it is 32 bits wide, aligned and inside the window (R54). -/
theorem accessReg_isSome_iff (bytes off : Nat) :
    (accessReg bytes off).isSome = true ↔ bytes = 4 ∧ off % 4 = 0 ∧ off ≤ 0x3F := by
  constructor
  · intro h
    obtain ⟨r, hr⟩ := Option.isSome_iff_exists.mp h
    obtain ⟨hb, rfl⟩ := accessReg_eq_some hr
    exact ⟨hb, r.offset_aligned_in_window⟩
  · rintro ⟨rfl, ha, hw⟩
    exact WinReg.ofOffset_isSome ha hw

theorem accessReg_eq_none_iff (bytes off : Nat) :
    accessReg bytes off = none ↔ bytes ≠ 4 ∨ off % 4 ≠ 0 ∨ 0x3F < off := by
  rw [← Option.not_isSome_iff_eq_none, accessReg_isSome_iff]
  omega

/-! ## Performing a write and a read -/

section
variable {bytes off : Nat} {r : WinReg} (h : Nat) (v : Word) (x : Option Word) (s : State)

theorem performEvent_write (hr : accessReg bytes off = some r) :
    performEvent ⟨h, .write bytes off v⟩ s = regWrite r v s := by
  simp [performEvent, hr]

theorem performEvent_read (hr : accessReg bytes off = some r) :
    performEvent ⟨h, .read bytes off x⟩ s = .next (s.withRead ⟨h, off, regRead r s.eng, x⟩) := by
  simp [performEvent, hr]

theorem performEvent_write_refused (hn : accessReg bytes off = none) :
    performEvent ⟨h, .write bytes off v⟩ s = .refused (.unsupportedAccess bytes off) := by
  simp [performEvent, hn]

theorem performEvent_read_refused (hn : accessReg bytes off = none) :
    performEvent ⟨h, .read bytes off x⟩ s = .refused (.unsupportedAccess bytes off) := by
  simp [performEvent, hn]

theorem performEvent_write_offset (r : WinReg) : performEvent ⟨h, .write 4 r.offset v⟩ s = regWrite r v s :=
  performEvent_write h v s (accessReg_offset r)

theorem performEvent_read_offset (r : WinReg) :
    performEvent ⟨h, .read 4 r.offset x⟩ s = .next (s.withRead ⟨h, r.offset, regRead r s.eng, x⟩) :=
  performEvent_read h x s (accessReg_offset r)

end

/-! ## The statements -/

/-- Settles O31: DATAw and KSw both read as register w of their array, whose lanes are `laneByte_getLanes`. -/
theorem arrayReadsAreLittleEndian : Obligations.ArrayReadsAreLittleEndian :=
  fun e w k => ⟨laneByte_getLanes e.DATA w k, laneByte_getLanes e.S w k⟩

/-- Settles O34: the refused accesses are those that reach no register; a write or a read of a register answers next. -/
theorem unsupportedAccessesAreRefused : Obligations.UnsupportedAccessesAreRefused := by
  intro s h bytes off v x
  rw [← accessReg_eq_none_iff]
  constructor
  · intro hn
    exact ⟨performEvent_write_refused h v s hn, performEvent_read_refused h x s hn⟩
  · intro hs
    obtain ⟨r, hr⟩ := Option.ne_none_iff_exists'.mp hs
    obtain ⟨e', he'⟩ := regWrite_next r v s.eng
    exact ⟨⟨_, (performEvent_write h v s hr).trans (he' s rfl)⟩, ⟨_, performEvent_read h x s hr⟩⟩

/-- Settles O29: each offset is a register's, and a write of KEYw or DATAw is `putLanes` on that array alone. -/
theorem regWriteByOffset : Obligations.RegWriteByOffset := by
  intro s h v
  refine ⟨performEvent_write_offset h v s .cmd, fun w => ?key, fun w => ?data, fun off hoff => ?ignored⟩
  case key =>
    exact ⟨putLanes s.eng.KEY w v, performEvent_write_offset h v s (.key w), fun j => getElem_putLanes s.eng.KEY w v j j.isLt⟩
  case data =>
    exact ⟨putLanes s.eng.DATA w v, performEvent_write_offset h v s (.data w),
      fun j => getElem_putLanes s.eng.DATA w v j j.isLt⟩
  case ignored =>
    -- STATUS, the two reserved offsets and KS0 to KS3 (R53)
    fin_cases hoff <;> rfl

/-- Settles O30: each offset is a register's, and the read's one effect on the machine is the value it returns. -/
theorem regReadByOffset : Obligations.RegReadByOffset := by
  intro s h x
  refine ⟨performEvent_read_offset h x s .status, fun w => performEvent_read_offset h x s (.data w),
    fun w => performEvent_read_offset h x s (.ks w), fun off hoff => ?zero⟩
  -- CMD, the two reserved offsets and KEY0 to KEY3 (R53)
  fin_cases hoff <;> rfl

end Sys2Proof.Machine
end

section
/-! PROOFS. The statements about the command word (30_encoding.md): which words are legal (R84), how many they are, and what an
illegal one does (R83, R191, R214). -/

namespace Sys2Proof

/-! ## The fields as numbers -/

theorem opcField_toNat (v : Word) : (opcField v).toNat = v.toNat % 16 := by
  simp [opcField, BitVec.extractLsb'_toNat]

theorem lenField_toNat (v : Word) : (lenField v).toNat = v.toNat / 16 % 32 := by
  simp [lenField, BitVec.extractLsb'_toNat, Nat.shiftRight_eq_div_pow]

theorem rsvField_toNat (v : Word) : (rsvField v).toNat = v.toNat / 512 := by
  have hv : v.toNat / 512 < 2 ^ 23 := by omega
  simpa [rsvField, BitVec.extractLsb'_toNat, Nat.shiftRight_eq_div_pow] using Nat.mod_eq_of_lt hv

/-! ## Legality -/

/-- The words that R84 makes legal, opcode by opcode, in the word's fields. -/
theorem legal_iff_fields (v : Word) :
    legal v = true ↔ rsvField v = 0 ∧
      ((opcField v = 1 ∧ lenField v = 0) ∨ opcField v = 2 ∨ (opcField v = 3 ∧ lenField v = 0) ∨
        (opcField v = 4 ∧ (lenField v).toNat ≤ 16)) := by
  unfold legal
  by_cases h0 : rsvField v = 0#23
  · by_cases h1 : opcField v = 1#4
    · simp [h0, h1]
    · by_cases h2 : opcField v = 2#4
      · simp [h0, h2]
      · by_cases h3 : opcField v = 3#4
        · simp [h0, h3]
        · simp [h0, h1, h2, h3]
  · simp [h0]

/-- `legal_iff_fields` with the fields read as numbers of the word (R80). -/
theorem legal_iff_toNat (v : Word) :
    legal v = true ↔ v.toNat / 512 = 0 ∧
      ((v.toNat % 16 = 1 ∧ v.toNat / 16 % 32 = 0) ∨ v.toNat % 16 = 2 ∨
        (v.toNat % 16 = 3 ∧ v.toNat / 16 % 32 = 0) ∨ (v.toNat % 16 = 4 ∧ v.toNat / 16 % 32 ≤ 16)) := by
  rw [legal_iff_fields, ← opcField_toNat, ← lenField_toNat, ← rsvField_toNat]
  simp only [← BitVec.toNat_inj, BitVec.ofNat_eq_ofNat, BitVec.toNat_ofNat, Nat.reducePow, Nat.reduceMod]

/-- `legal` and the decoder agree, so the legal words are what `encode` makes of the well-formed commands. -/
theorem legal_iff_exists_encode (v : Word) : legal v = true ↔ ∃ i : Instr, i.wf = true ∧ encode i = v := by
  constructor
  · intro hv
    obtain ⟨-, -, -, hd⟩ | ⟨-, -, hd⟩ | ⟨-, -, -, hd⟩ | ⟨-, -, -, hd⟩ | ⟨hf, -⟩ := Machine.decode_cases v
    case inr.inr.inr.inr => simp [hv] at hf
    all_goals exact ⟨_, Machine.wf_of_decode hd, encode_of_decode hd⟩
  · rintro ⟨i, hi, rfl⟩
    by_contra hv
    obtain ⟨c, hc⟩ := Machine.decode_of_not_legal _ (Bool.eq_false_of_not_eq_true hv)
    simp [decode_encode_of_wf hi] at hc

/-! ## The legal words, listed -/

/-- Every value of the LEN field. -/
def lenValues : List (BitVec 5) := (List.finRange 32).map BitVec.ofFin

theorem mem_lenValues (n : BitVec 5) : n ∈ lenValues :=
  List.mem_map.mpr ⟨n.toFin, List.mem_finRange _, rfl⟩

theorem nodup_lenValues : lenValues.Nodup :=
  (List.nodup_finRange 32).map fun _ _ h => congrArg BitVec.toFin h

/-- The well-formed commands in the order of R84's sum, 1 + 32 + 1 + 17. -/
def wfCommands : List Instr :=
  .reset :: lenValues.map .setupKey ++ .nextBlock :: (lenValues.filter (·.toNat ≤ 16)).map .crypt

theorem mem_wfCommands (i : Instr) : i ∈ wfCommands ↔ i.wf = true := by
  cases i <;> simp [wfCommands, Instr.wf, mem_lenValues]

theorem nodup_wfCommands : wfCommands.Nodup := by
  have hs : (lenValues.map Instr.setupKey).Nodup := nodup_lenValues.map fun _ _ h => by injection h
  have hc : ((lenValues.filter (·.toNat ≤ 16)).map Instr.crypt).Nodup :=
    (nodup_lenValues.filter _).map fun _ _ h => by injection h
  simp [wfCommands, List.nodup_append', List.disjoint_left, hs, hc]

/-- Distinct well-formed commands have distinct words, because the decoder reads the command back. -/
theorem encode_inj_of_wf {i j : Instr} (hi : i.wf = true) (hj : j.wf = true) (h : encode i = encode j) : i = j := by
  have hd := decode_encode_of_wf hi
  rw [h, decode_encode_of_wf hj] at hd
  exact (Decoded.instr.inj hd).symm

theorem nodup_encode_wfCommands : (wfCommands.map encode).Nodup :=
  nodup_wfCommands.map_on fun i hi j hj => encode_inj_of_wf ((mem_wfCommands i).mp hi) ((mem_wfCommands j).mp hj)

theorem mem_encode_wfCommands (v : Word) : v ∈ wfCommands.map encode ↔ legal v = true := by
  simp [mem_wfCommands, legal_iff_exists_encode]

end Sys2Proof

namespace Sys2Proof.Machine

/-! ## The statements -/

/-- Settles O16: R84 in arithmetic is `legal_iff_toNat`, and the legal words are the words of the 51 well-formed commands. -/
theorem legalWordsAreFiftyOne : Obligations.LegalWordsAreFiftyOne :=
  ⟨legal_iff_toNat, wfCommands.map encode, nodup_encode_wfCommands, by decide, mem_encode_wfCommands⟩

/-- Settles O17: the three causes are the complement of R84's words, and an illegal CMD write is `execute_of_illegal`. -/
theorem illegalWordsOnlySetErr : Obligations.IllegalWordsOnlySetErr := by
  intro v
  constructor
  · rw [← Bool.not_eq_true, legal_iff_toNat]
    omega
  · intro hv s h
    exact (performEvent_write_offset h v s .cmd).trans (execute_of_illegal hv s)

end Sys2Proof.Machine
end

section
/-! PROOFS. The statements about the datapath units (40_datapath.md): the g-function (R103), the recombination (R105), the order of
a step (R106), the block extractor (R107, R108) and the XOR combiner (R110). -/

namespace Sys2Proof.Machine

/-! ## The g-function -/

theorem mul64_toNat (a b : Word) : (mul64 a b).toNat = a.toNat * b.toNat := by
  have ha : (a.setWidth 64).toNat = a.toNat := BitVec.toNat_setWidth_of_le (by decide)
  have hb : (b.setWidth 64).toNat = b.toNat := BitVec.toNat_setWidth_of_le (by decide)
  have hab : a.toNat * b.toNat < 2 ^ 32 * 2 ^ 32 := Nat.mul_lt_mul'' a.isLt b.isLt
  rw [mul64, BitVec.toNat_mul_of_lt (by rwa [ha, hb]), ha, hb]

/-- g in natural numbers: the low half of the exact square of the wrapped sum, XOR its high half (R103). -/
theorem gFunction_toNat (u v : Word) :
    (gFunction u v).toNat = ((u + v).toNat * (u + v).toNat % 2 ^ 32) ^^^ ((u + v).toNat * (u + v).toNat / 2 ^ 32) := by
  have hsq : (u + v).toNat * (u + v).toNat < 2 ^ 32 * 2 ^ 32 := Nat.mul_lt_mul'' (u + v).isLt (u + v).isLt
  have hhi : (u + v).toNat * (u + v).toNat / 2 ^ 32 < 2 ^ 32 := Nat.div_lt_of_lt_mul hsq
  simp only [gFunction, BitVec.toNat_xor, BitVec.extractLsb'_toNat, mul64_toNat, Nat.shiftRight_eq_div_pow,
    Nat.mod_eq_of_lt hhi, Nat.pow_zero, Nat.div_one]

/-- The g outputs, one for each of the eight indices. -/
theorem gOutputs_eq (X C' : Words) :
    gOutputs X C' =
      #v[gFunction X[0] C'[0], gFunction X[1] C'[1], gFunction X[2] C'[2], gFunction X[3] C'[3],
         gFunction X[4] C'[4], gFunction X[5] C'[5], gFunction X[6] C'[6], gFunction X[7] C'[7]] := by
  refine Vector.ext fun i hi => ?_
  rw [getElem_gOutputs X C' i hi]
  interval_cases i <;> rfl

/-! ## The rotation -/

theorem rotl_eq_rotateLeft (a : Word) {n : Nat} (hn : n < 32) : rotl a n = a.rotateLeft n :=
  (BitVec.rotateLeft_eq_rotateLeftAux_of_lt hn).symm

/-! ## The block bytes -/

theorem halfByte_xor (a b : Half) (k : Nat) : halfByte (a ^^^ b) k = halfByte a k ^^^ halfByte b k :=
  BitVec.extractLsb'_xor

theorem halfByte_lo16 (x : Word) {k : Nat} (hk : k < 2) : halfByte (lo16 x) k = x.extractLsb' (8 * k) 8 :=
  BitVec.extractLsb'_extractLsb'_of_le (by omega)

theorem halfByte_hi16 (x : Word) {k : Nat} (hk : k < 2) : halfByte (hi16 x) k = x.extractLsb' (16 + 8 * k) 8 := by
  ext i hi
  have hki : 8 * k + i < 16 := by omega
  simp [halfByte, hi16, BitVec.getElem_extractLsb', hki, Nat.add_assoc]

/-! ## The XOR combiner -/

theorem getElem_xorCombine_of_zero {S : Bytes} (D : Bytes) (n j : Nat) (hj : j < 16) (hS : S[j] = 0) :
    (xorCombine D S n)[j] = D[j] := by
  rw [getElem_xorCombine, hS]
  split
  · exact BitVec.xor_zero
  · rfl

/-- A lane below n is XORed with S twice, any other lane not at all. -/
theorem xorCombine_xorCombine (D S : Bytes) (n : Nat) : xorCombine (xorCombine D S n) S n = D := by
  refine Vector.ext fun j hj => ?_
  simp only [getElem_xorCombine]
  split
  · rw [BitVec.xor_assoc, BitVec.xor_self, BitVec.xor_zero]
  · rfl

theorem xorCombine_zero (D S : Bytes) : xorCombine D S 0 = D := by
  refine Vector.ext fun j hj => ?_
  rw [getElem_xorCombine, if_neg (Nat.not_lt_zero j)]

/-! ## The statements -/

/-- Settles O39: g as a number is `gFunction_toNat`, and a step's G is `gOutputs` of the old X and the new C. -/
theorem gFunctionFoldsTheExactSquare : Obligations.GFunctionFoldsTheExactSquare := by
  refine ⟨fun u v => ?value,
    fun r => ⟨gOutputs r.X (updateStep r).C, rfl, fun i => getElem_gOutputs r.X (updateStep r).C i i.isLt⟩⟩
  case value => simpa only [BitVec.toNat_add] using gFunction_toNat u v

/-- Settles O42: byte j is a byte of combination j div 2 (R108), which is the XOR of the same byte of two halves of X (R107). -/
theorem blockBytes : Obligations.BlockBytes := by
  intro X
  refine Vector.ext fun j hj => ?_
  rw [getElem_block X j hj]
  interval_cases j <;> simp [extract, halfByte_xor, halfByte_lo16, halfByte_hi16]

/-- Settles O44: the lanes of `xorCombine`, read one by one. -/
theorem xorCombinerLanes : Obligations.XorCombinerLanes :=
  fun D S n _ => ⟨fun j => getElem_xorCombine D S n j j.isLt, xorCombine_xorCombine D S n, xorCombine_zero D S,
    fun j hS => getElem_xorCombine_of_zero D n j j.isLt hS⟩

/-- Settles O40: the network is the model's line by line, and its rotation by 8 or 16 is the library's. -/
theorem nextStateNetwork : Obligations.NextStateNetwork := by
  intro G
  simp only [nextState, rotl_eq_rotateLeft, Nat.reduceLT]

/-- Settles O41: the step recombines `gOutputs` of the old X and the new counters. -/
theorem stepOrder : Obligations.StepOrder := by
  intro X C b
  simp only [updateStep, gOutputs_eq]

end Sys2Proof.Machine
end

section
/-! PROOFS. The statements about the key schedule (41_key_schedule.md): the length check and the effect of SETUP_KEY (R141, R143,
R145, R146), and the coupling (R144). -/

namespace Sys2Proof.Machine

/-! ## The schedule -/

/-- Coupling, one word for each of the eight indices. -/
theorem couple_eq (X C : Words) :
    couple X C =
      #v[C[0] ^^^ X[4], C[1] ^^^ X[5], C[2] ^^^ X[6], C[3] ^^^ X[7], C[4] ^^^ X[0], C[5] ^^^ X[1], C[6] ^^^ X[2],
         C[7] ^^^ X[3]] := by
  refine Vector.ext fun i hi => ?_
  rw [getElem_couple X C i hi]
  interval_cases i <;> rfl

theorem iterateStep_four (r : Session) : iterateStep 4 r = updateStep (updateStep (updateStep (updateStep r))) := rfl

/-- The schedule with its four steps written out, from the loaded words and the carry 0 (R143, R146). -/
theorem keySchedule_eq (KEY : Bytes) :
    let r := updateStep (updateStep (updateStep (updateStep { X := keyLoadX KEY, C := keyLoadC KEY, b := 0 })))
    keySchedule KEY = { X := r.X, C := couple r.X r.C, b := r.b } := by
  simp only [keySchedule, keyLoad, iterateStep_four]

/-! ## The statements -/

/-- Settles O5: the coupled words are `couple_eq`, and the schedule couples only the C half of the session. -/
theorem coupleFoldsStateIntoCounters : Obligations.CoupleFoldsStateIntoCounters :=
  ⟨couple_eq, fun _ => rfl⟩

/-- Settles O3: a short length raises ERR = 1, a long one puts the session of `keySchedule_eq` in place. -/
theorem setupKeyChecksLengthThenRunsSchedule : Obligations.SetupKeyChecksLengthThenRunsSchedule := by
  intro n s
  refine ⟨fun hn => execSetupKey_short hn s, fun hn => ?long⟩
  case long =>
    have h : exec (.setupKey n) s = _ := execSetupKey_long hn s
    rw [keySchedule_eq] at h
    exact h

end Sys2Proof.Machine
end

section
/-! PROOFS. The statements about the keystream commands (42_keystream.md): NEXT_BLOCK (R160), CRYPT (R162), the block that both
draw (R163), and the host protocol `setupKey` (R170). -/

namespace Sys2Proof

/-! ## The words of the commands -/

/-- A word with RSV = 0 is its opcode or'ed with LEN in bits 8:4 (30_encoding.md R80, R87). -/
theorem cmdw_zero_eq_or (len : BitVec 5) (opc : BitVec 4) : cmdw 0 len opc = opc.setWidth 32 ||| len.setWidth 32 <<< 4 := by
  refine BitVec.eq_of_getLsbD_eq fun i hi => ?_
  simp only [cmdw, BitVec.getLsbD_append, BitVec.getLsbD_or, BitVec.getLsbD_shiftLeft, BitVec.getLsbD_setWidth]
  by_cases h4 : i < 4
  · simp [h4, hi]
  · by_cases h9 : i - 4 < 5
    · simp [h4, h9, hi, show i - 4 < 32 by omega, BitVec.getLsbD_of_ge opc i (by omega)]
    · simp [h4, h9, BitVec.getLsbD_of_ge opc i (by omega), BitVec.getLsbD_of_ge len (i - 4) (by omega)]

theorem encode_crypt (n : BitVec 5) : encode (.crypt n) = 0x00000004 ||| n.setWidth 32 <<< 4 :=
  cmdw_zero_eq_or n 4

end Sys2Proof

namespace Sys2Proof.Machine

/-! ## The host protocol setupKey -/

/-- The LEN that `setupKey` sends for a key of any length (R170). -/
theorem setupKeyLen_toNat (L : Nat) : (BitVec.ofNat 5 (min L 31)).toNat = min L 31 := by
  rw [BitVec.toNat_ofNat]
  omega

/-- Clearing KEY forgets the key that was loaded, whatever session was put in place between. -/
theorem Engine.withKEY_withSession_withReady_withKEY (e : Engine) (v w : Bytes) (r : Session) (b : Bool) :
    (((e.withKEY v).withSession r).withReady b).withKEY w = ((e.withSession r).withReady b).withKEY w := rfl

/-- `setupKey` loads the padded key, runs SETUP_KEY, and answers the ERR that the command left. -/
theorem hostSetupKey_eq_exec (key : List Byte) (s : State) :
    hostSetupKey key s =
      andThen (exec (.setupKey (BitVec.ofNat 5 (min key.length 31))) (s.withEng (s.eng.withKEY (padKey key)))) fun t =>
        .next (t.eng.ERR, t) := by
  have hcmd := hostCommand_eq _ (decode_encode_of_wf (i := .setupKey (BitVec.ofNat 5 (min key.length 31))) rfl)
  simp only [hostSetupKey, writeArray_key, andThen_next, hcmd, readERR_eq]

/-- A key shorter than 16 bytes: LEN is its length, so SETUP_KEY raises ERR = 1 and KEY keeps the padded bytes. -/
theorem hostSetupKey_short {key : List Byte} (hk : key.length < 16) (s : State) :
    hostSetupKey key s = .next (1, s.withEng ((s.eng.withKEY (padKey key)).withERR 1)) := by
  have hn : (BitVec.ofNat 5 (min key.length 31)).toNat < 16 := by
    rw [setupKeyLen_toNat]
    omega
  rw [hostSetupKey_eq_exec, exec, execSetupKey_short hn]
  rfl

/-- A key of 16 bytes or more: LEN is at least 16, so SETUP_KEY runs the schedule on the first 16 bytes and clears KEY. -/
theorem hostSetupKey_long {key : List Byte} (hk : 16 ≤ key.length) (s : State) :
    hostSetupKey key s = .next (0, s.withEng
      ((((s.eng.withSession (keySchedule (padKey key))).withReady true).withKEY zeroBytes).withERR 0)) := by
  have hn : 16 ≤ (BitVec.ofNat 5 (min key.length 31)).toNat := by
    rw [setupKeyLen_toNat]
    omega
  rw [hostSetupKey_eq_exec, exec, execSetupKey_long hn]
  simp only [andThen_next, State.withEng_eng, State.withEng_withEng, Engine.withKEY_KEY, Engine.withERR_ERR,
    Engine.withKEY_withSession_withReady_withKEY]

/-! ## The statements -/

/-- Settles O45: the two lengths of R170 are the two outcomes of SETUP_KEY on the padded key. -/
theorem hostSetupKeyOutcomes : Obligations.HostSetupKeyOutcomes :=
  fun _ s => ⟨fun hk => hostSetupKey_short hk s, fun hk => hostSetupKey_long hk s⟩

/-- Settles O8: a ready engine takes `drawBlock`, one that is not ready takes the error. -/
theorem nextBlockDrawsOneBlock : Obligations.NextBlockDrawsOneBlock :=
  ⟨decode_encode_of_wf (i := .nextBlock) rfl, fun _ => ⟨execNextBlock_ready, execNextBlock_not_ready⟩⟩

/-- Settles O9: the word is `encode_crypt`, and the effects are those of `execCrypt` for n = 0, for n >= 1 and when not ready. -/
theorem cryptCombinesOneBlock : Obligations.CryptCombinesOneBlock := by
  intro n s hn
  refine ⟨?word, fun hr h0 => execCrypt_zero h0 hr, fun hr h1 => execCrypt_pos h1 hn hr, fun hr => execCrypt_not_ready hn hr⟩
  case word =>
    rw [← encode_crypt]
    exact decode_encode_of_wf (decide_eq_true hn)

/-- Settles O11: CRYPT with n >= 1 and NEXT_BLOCK both leave the engine of `drawBlock`, DATA apart. -/
theorem cryptKeepsNoBlockOffset : Obligations.CryptKeepsNoBlockOffset :=
  fun _ _ hr h1 hn => ⟨_, _, execCrypt_pos h1 hn hr, execNextBlock_ready hr, rfl⟩

end Sys2Proof.Machine
end

section
/-! PROOFS. The statements about the engine's errors (60_exceptions.md): the order of the checks that decide ERR (R211, R216), and
NEXT_BLOCK and CRYPT on an engine that is not ready (R213). -/

namespace Sys2Proof

/-- The word of any command carries its opcode and its LEN (30_encoding.md R80, R87). -/
theorem fields_encode (i : Instr) : opcField (encode i) = i.opcode ∧ lenField (encode i) = i.len := by
  obtain ⟨hopc, hlen, -⟩ := cmdw_fields 0 i.len i.opcode
  exact ⟨hopc, hlen⟩

end Sys2Proof

namespace Sys2Proof.Machine

/-! ## What a command leaves in ERR -/

/-- ERR after a well-formed command: readiness is NEXT_BLOCK's and CRYPT's one check, the key length SETUP_KEY's (R212, R213). -/
theorem exec_ERR {i : Instr} (hi : i.wf = true) {s s' : State} (h : exec i s = .next s') :
    s'.eng.ERR =
      if (i.opcode = 3 ∨ i.opcode = 4) ∧ s.eng.ready = false then 2
      else if i.opcode = 2 ∧ i.len.toNat < 16 then 1
      else 0 := by
  obtain ⟨rfl, he⟩ | ⟨n, rfl, hn, he⟩ | ⟨n, rfl, hn, he⟩ | ⟨rfl, hr, he⟩ | ⟨rfl, hr, he⟩ | ⟨n, rfl, hn, -⟩ |
    ⟨n, rfl, -, hr, he⟩ | ⟨n, rfl, -, hr, he⟩ | ⟨n, rfl, -, -, hr, he⟩ := exec_cases i s
  case inr.inr.inr.inr.inr.inl =>
    have hle : n.toNat ≤ 16 := of_decide_eq_true hi
    omega
  all_goals
    rw [he] at h
    cases h
  case inl => rfl
  case inr.inl => simp [Instr.opcode, Instr.len, hn]
  case inr.inr.inl => simp [Instr.opcode, Instr.len, Nat.not_lt.mpr hn]
  all_goals simp [Instr.opcode, hr]

/-- ERR after a CMD write: the word's legality is checked first, then the command's own check (R216). -/
theorem execute_ERR {v : Word} {s s' : State} (h : execute v s = .next s') :
    s'.eng.ERR =
      if legal v = false then 3
      else if (opcField v = 3 ∨ opcField v = 4) ∧ s.eng.ready = false then 2
      else if opcField v = 2 ∧ (lenField v).toNat < 16 then 1
      else 0 := by
  obtain hv | hv := Bool.eq_false_or_eq_true (legal v)
  · obtain ⟨i, hi, rfl⟩ := (legal_iff_exists_encode v).mp hv
    obtain ⟨hopc, hlen⟩ := fields_encode i
    rw [execute_of_instr (decode_encode_of_wf hi)] at h
    rw [if_neg (by simp [hv]), hopc, hlen]
    exact exec_ERR hi h
  · rw [execute_of_illegal hv] at h
    cases h
    rw [if_pos hv]
    rfl

/-- Every CMD write completes: Execute is `regWrite` of CMD, which always answers next. -/
theorem execute_next (v : Word) (s : State) : ∃ s', execute v s = .next s' := by
  obtain ⟨e', he'⟩ := regWrite_next .cmd v s.eng
  exact ⟨s.withEng e', he' s rfl⟩

/-! ## The statements -/

/-- Settles O18: every CMD write completes, ERR is `execute_ERR`, and STATUS shows it. -/
theorem errAfterEveryCommand : Obligations.ErrAfterEveryCommand := by
  intro v s
  obtain ⟨s', h⟩ := execute_next v s
  exact ⟨s', h, statusERR_statusWord s'.eng, execute_ERR h⟩

/-- Settles O10: the reset input and RESET put `Engine.reset` in place, and a NEXT_BLOCK or a CRYPT that is not ready takes the
error. -/
theorem notReadyCommandsOnlySetErr : Obligations.NotReadyCommandsOnlySetErr := by
  refine ⟨rfl, fun s s' h hs => ?reset, fun s h hr => ⟨?nextBlock, fun n hn => ?crypt⟩⟩
  case reset =>
    obtain hs | hs := hs
    · cases hs
      rfl
    · have he := (performEvent_write_encode (i := .reset) rfl h s).trans (execReset_eq s)
      cases he.symm.trans hs
      rfl
  case nextBlock => exact (performEvent_write_encode (i := .nextBlock) rfl h s).trans (execNextBlock_not_ready hr)
  case crypt =>
    rw [← encode_crypt]
    exact (performEvent_write_encode (i := .crypt n) (decide_eq_true hn) h s).trans (execCrypt_not_ready hn hr)

end Sys2Proof.Machine
end

section
/-! PROOFS. The statements about what may change the session, the keystream buffer and the readiness flag: the readiness invariant
(10_state.md R37), the block sequence of a session (42_keystream.md R161), and the "written by" lists of 10_state.md. -/

namespace Sys2Proof.Machine

/-! ## Drawing blocks -/

/-- `e'` is a ready engine n drawn blocks after `e`: the session is stepped n times, and S is the last block drawn, if any. -/
def Engine.Drew (n : Nat) (e e' : Engine) : Prop :=
  e'.ready = true ∧ e'.session = iterateStep n e.session ∧ e'.S = if n = 0 then e.S else block e'.X

theorem Engine.drew_zero {e e' : Engine} (hr : e'.ready = true) (hx : e'.session = e.session) (hS : e'.S = e.S) :
    e.Drew 0 e' :=
  ⟨hr, hx, hS⟩

theorem Engine.Drew.trans {n k : Nat} {e₀ e₁ e₂ : Engine} (h₁ : e₀.Drew n e₁) (h₂ : e₁.Drew k e₂) : e₀.Drew (n + k) e₂ := by
  obtain ⟨-, hx₁, hS₁⟩ := h₁
  obtain ⟨hr₂, hx₂, hS₂⟩ := h₂
  refine ⟨hr₂, by rw [hx₂, hx₁, iterateStep_add], ?_⟩
  cases k with
  | zero =>
    have hX : e₂.X = e₁.X := congrArg Session.X hx₂
    rw [hS₂, hX]
    exact hS₁
  | succ k => exact hS₂

/-! ## What a command and an access do to the session -/

/-- What a well-formed command does to the session, S and ready: RESET clears them, a SETUP_KEY that succeeds starts a session and
keeps S, a block-drawing command on a ready engine draws one block, and any other command keeps all of them. -/
theorem exec_session_cases {i : Instr} (hi : i.wf = true) {s s' : State} (h : exec i s = .next s') :
    (i = .reset ∧ s'.eng = Engine.reset) ∨
    (endsSession i = true ∧ s'.eng.ready = true ∧ s'.eng.S = s.eng.S) ∨
    (drawsBlock i = true ∧ s.eng.ready = true ∧ s.eng.Drew 1 s'.eng) ∨
    ((drawsBlock i = true → s.eng.ready = false) ∧
      s'.eng.ready = s.eng.ready ∧ s'.eng.session = s.eng.session ∧ s'.eng.S = s.eng.S) := by
  obtain ⟨rfl, he⟩ | ⟨n, rfl, -, he⟩ | ⟨n, rfl, hn, he⟩ | ⟨rfl, hr, he⟩ | ⟨rfl, hr, he⟩ | ⟨n, rfl, hn, -⟩ |
    ⟨n, rfl, -, hr, he⟩ | ⟨n, rfl, hn, -, he⟩ | ⟨n, rfl, hn, -, hr, he⟩ := exec_cases i s
  case inr.inr.inr.inr.inr.inl =>
    have hle : n.toNat ≤ 16 := of_decide_eq_true hi
    omega
  all_goals
    rw [he] at h
    cases h
  -- RESET, SETUP_KEY (short key, long key), NEXT_BLOCK (ready, not ready), CRYPT (not ready, n = 0, n >= 1)
  · exact .inl ⟨rfl, rfl⟩
  · exact .inr (.inr (.inr ⟨by simp [drawsBlock], rfl, rfl, rfl⟩))
  · exact .inr (.inl ⟨decide_eq_true hn, rfl, rfl⟩)
  · exact .inr (.inr (.inl ⟨rfl, hr, hr, rfl, rfl⟩))
  · exact .inr (.inr (.inr ⟨fun _ => hr, rfl, rfl, rfl⟩))
  · exact .inr (.inr (.inr ⟨fun _ => hr, rfl, rfl, rfl⟩))
  · exact .inr (.inr (.inr ⟨by simp [drawsBlock, hn], rfl, rfl, rfl⟩))
  · exact .inr (.inr (.inl ⟨decide_eq_true hn, hr, hr, rfl, rfl⟩))

/-- What an access does to the session, S and ready: `exec_session_cases` for a command, and the reset input beside RESET. -/
theorem performEvent_session_cases {ev : HostEvent} {s s' : State} (h : performEvent ev s = .next s') :
    ((ev.access = .resetInput ∨ ev.access.command = some .reset) ∧ s'.eng = Engine.reset) ∨
    (ev.access.command.any endsSession = true ∧ s'.eng.ready = true ∧ s'.eng.S = s.eng.S) ∨
    (ev.access.command.any drawsBlock = true ∧ s.eng.ready = true ∧ s.eng.Drew 1 s'.eng) ∨
    ((ev.access.command.any drawsBlock = true → s.eng.ready = false) ∧
      s'.eng.ready = s.eng.ready ∧ s'.eng.session = s.eng.session ∧ s'.eng.S = s.eng.S) := by
  obtain ⟨ha, he⟩ | ⟨v, i, -, hd, hc, hx⟩ | ⟨v, -, -, hc, he⟩ | ⟨w, v, -, hc, he⟩ | ⟨w, v, -, hc, he⟩ | ⟨hc, he⟩ :=
    performEvent_cases h
  case inl => exact .inl ⟨.inl ha, he⟩
  case inr.inl =>
    rw [hc]
    obtain ⟨rfl, he⟩ | hends | hdraws | hkeeps := exec_session_cases (wf_of_decode hd) hx
    · exact .inl ⟨.inr rfl, he⟩
    · exact .inr (.inl hends)
    · exact .inr (.inr (.inl hdraws))
    · exact .inr (.inr (.inr hkeeps))
  all_goals
    exact .inr (.inr (.inr ⟨by simp [hc], by simp [he], by simp [he], by simp [he]⟩))

/-! ## The readiness invariant -/

theorem Engine.inv_of_ready {e : Engine} (h : e.ready = true) : e.inv = true := by
  simp [Engine.inv, h]

theorem Engine.reset_inv : Engine.reset.inv = true := by decide

/-- The invariant speaks of ready, the session and S only. -/
theorem Engine.inv_congr {e e' : Engine} (hr : e'.ready = e.ready) (hx : e'.session = e.session) (hS : e'.S = e.S) :
    e'.inv = e.inv := by
  obtain ⟨hX, hC, hb⟩ := Session.mk.inj hx
  simp only [Engine.inv, hr, hX, hC, hb, hS]

theorem performEvent_keeps_inv {ev : HostEvent} {s s' : State} (hi : s.inv = true) (h : performEvent ev s = .next s') :
    s'.inv = true := by
  obtain ⟨-, he⟩ | ⟨-, hr, -⟩ | ⟨-, -, hr, -⟩ | ⟨-, hr, hx, hS⟩ := performEvent_session_cases h
  · rw [State.inv, he]
    exact Engine.reset_inv
  · exact Engine.inv_of_ready hr
  · exact Engine.inv_of_ready hr
  · exact (Engine.inv_congr hr hx hS).trans hi

/-! ## A program that keeps the session -/

/-- A supported access that keeps the session draws, on a ready engine, one block if its command draws one and else none. -/
theorem performEvent_draws {ev : HostEvent} {s : State} (hr : s.eng.ready = true) (hs : ev.access.supported = true)
    (hk : ev.access.keepsSession = true) :
    ∃ t, performEvent ev s = .next t ∧ s.eng.Drew (blocksDrawn [ev]) t.eng := by
  obtain ⟨e', rs, he', -, -⟩ := performEvent_next ev hs s.eng
  have h := he' s rfl
  refine ⟨_, h, ?_⟩
  simp only [Access.keepsSession, Bool.and_eq_true, bne_iff_ne, Bool.not_eq_true', ne_eq] at hk
  obtain ⟨hin, hends⟩ := hk
  obtain ⟨ha | hc, -⟩ | ⟨he, -⟩ | ⟨hd, -, hdrew⟩ | ⟨hd, hr', hx, hS⟩ := performEvent_session_cases h
  · exact absurd ha hin
  · simp [hc, endsSession] at hends
  · simp [he] at hends
  · rwa [blocksDrawn, List.countP_singleton, if_pos hd]
  · have hnone : ¬ ev.access.command.any drawsBlock = true := fun hdraws => by simp [hd hdraws] at hr
    rw [blocksDrawn, List.countP_singleton, if_neg hnone]
    exact Engine.drew_zero (hr'.trans hr) hx hS

theorem performAll_draws {p : List HostEvent} {s : State} (hr : s.eng.ready = true)
    (hp : ∀ ev ∈ p, ev.access.supported = true ∧ ev.access.keepsSession = true) :
    ∃ t, performAll p s = .next t ∧ s.eng.Drew (blocksDrawn p) t.eng := by
  induction p generalizing s with
  | nil => exact ⟨s, rfl, Engine.drew_zero hr rfl rfl⟩
  | cons ev p ih =>
    obtain ⟨hev, hrest⟩ := List.forall_mem_cons.mp hp
    obtain ⟨t₁, h₁, hd₁⟩ := performEvent_draws hr hev.1 hev.2
    obtain ⟨t, h, hd⟩ := ih hd₁.1 hrest
    have hcount : blocksDrawn (ev :: p) = blocksDrawn [ev] + blocksDrawn p :=
      List.countP_append (l₁ := [ev])
    exact ⟨t, by rw [performAll, h₁, andThen_next, h], hcount ▸ hd₁.trans hd⟩

/-! ## The statements -/

/-- Settles O25: a step keeps the state or performs one access, and each access keeps the invariant. -/
theorem stepKeepsReadiness : Obligations.StepKeepsReadiness := by
  intro s s' hi h
  obtain ⟨-, rfl⟩ | ⟨ev, rest, -, hev⟩ := step_cases h
  · exact hi
  · exact performEvent_keeps_inv (s := s.withPending rest) hi hev

/-- Settles O24: at reset the engine is not ready and X, C, b and S are zero. -/
theorem readinessHoldsAtReset : Obligations.ReadinessHoldsAtReset := Engine.reset_inv

/-- Settles O12: `performAll_draws`, by induction on the program. -/
theorem blocksOfSessionFollowTheStep : Obligations.BlocksOfSessionFollowTheStep := by
  intro s p hr hp
  obtain ⟨t, h, hready, hx, hS⟩ := performAll_draws hr hp
  refine ⟨t, h, hready, hx, fun h0 => by rw [hS, if_pos h0], fun h1 => ?_⟩
  rw [hS, if_neg (by omega), ← hx, Engine.session_X]

/-- Settles O27: the four cases of `performEvent_session_cases`, of which the last changes neither the session nor S. -/
theorem whatChangesTheSession : Obligations.WhatChangesTheSession := by
  intro ev s s' h
  obtain ⟨ha | hc, -⟩ | ⟨he, -, hS⟩ | ⟨hd, hr, -⟩ | ⟨-, -, hx, hS⟩ := performEvent_session_cases h
  · exact ⟨fun _ => .inl ha, fun _ => .inl ha⟩
  · exact ⟨fun _ => .inr ⟨_, hc, .inl rfl⟩, fun _ => .inr ⟨_, hc, .inl rfl⟩⟩
  · obtain ⟨i, hc, hi⟩ := (Option.any_eq_true _ _).mp he
    exact ⟨fun _ => .inr ⟨i, hc, .inl hi⟩, fun hne => absurd hS hne⟩
  · obtain ⟨i, hc, hi⟩ := (Option.any_eq_true _ _).mp hd
    exact ⟨fun _ => .inr ⟨i, hc, .inr ⟨hi, hr⟩⟩, fun _ => .inr ⟨i, hc, .inr ⟨hi, hr⟩⟩⟩
  · exact ⟨fun hne => absurd hx hne, fun hne => absurd hS hne⟩

end Sys2Proof.Machine
end

section
/-! PROOFS. The statements about the encoding (30_encoding.md): decode and encode agree, the command words of its table, and the
words that the assembler writes. -/

namespace Sys2Proof

/-! ## The value of a command word -/

theorem cmdw_zero_toNat (len : BitVec 5) (opc : BitVec 4) : (cmdw 0 len opc).toNat = opc.toNat + 16 * len.toNat := by
  have ho := opcField_toNat (cmdw 0 len opc)
  have hl := lenField_toNat (cmdw 0 len opc)
  have hr := rsvField_toNat (cmdw 0 len opc)
  obtain ⟨hopc, hlen, hrsv⟩ := cmdw_fields 0 len opc
  rw [hopc] at ho
  rw [hlen] at hl
  rw [hrsv, show (0 : BitVec 23).toNat = 0 from rfl] at hr
  omega

theorem encode_setupKey (n : BitVec 5) : encode (.setupKey n) = 0x00000002 ||| n.setWidth 32 <<< 4 :=
  cmdw_zero_eq_or n 2

/-- A LEN literal that fits the field is the same number in 32 bits. -/
theorem setWidth_len {n : Nat} (h : n < 32) : (BitVec.ofNat 5 n).setWidth 32 = BitVec.ofNat 32 n := by
  apply BitVec.eq_of_toNat_eq
  simp only [BitVec.toNat_setWidth, BitVec.toNat_ofNat]
  omega

end Sys2Proof

namespace Sys2Proof.Machine

/-! ## The words of the mnemonics -/

theorem expand_setupKey {n : Nat} (h : n ≤ 31) :
    AsmLine.expand (.setupKey n) = some [.write 4 0x00 (encode (.setupKey (BitVec.ofNat 5 n)))] := by
  rw [encode_setupKey, setWidth_len (by omega)]
  exact if_pos h

theorem expand_crypt {n : Nat} (h : n ≤ 16) :
    AsmLine.expand (.crypt n) = some [.write 4 0x00 (encode (.crypt (BitVec.ofNat 5 n)))] := by
  rw [encode_crypt, setWidth_len (by omega)]
  exact if_pos h

/-! ## The statements -/

/-- Settles O15: the decoder reads a well-formed command back from its word, and OPC and LEN determine a legal word. -/
theorem decodeAndEncodeAgree : Obligations.DecodeAndEncodeAgree :=
  ⟨fun _ hi => decode_encode_of_wf hi, fun _ _ hd => ⟨wf_of_decode hd, encode_of_decode hd⟩⟩

/-- Settles O13: a word with RSV = 0 is OPC + 16 LEN. -/
theorem commandWordsAreAsTabled : Obligations.CommandWordsAreAsTabled :=
  ⟨rfl, rfl, fun n => cmdw_zero_toNat n 2, fun n => cmdw_zero_toNat n 4⟩

/-- Settles O14: the legal words are those of well-formed commands; each illegal one fails the check of its cause. -/
theorem exampleWordsDecode : Obligations.ExampleWordsDecode :=
  ⟨decode_encode_of_wf (i := .reset) rfl, decode_encode_of_wf (i := .setupKey 16) rfl,
    decode_encode_of_wf (i := .setupKey 31) rfl, decode_encode_of_wf (i := .nextBlock) rfl,
    decode_encode_of_wf (i := .crypt 16) rfl, decode_encode_of_wf (i := .crypt 0) rfl,
    by decide, by decide, by decide, by decide, by decide⟩

/-- Settles O51: RESET and NEXT_BLOCK are fixed words, SETUP_KEY and CRYPT put LEN into theirs, and a LEN out of range is refused. -/
theorem mnemonicsAssembleToTheirCommands : Obligations.MnemonicsAssembleToTheirCommands :=
  ⟨rfl, rfl, fun _ => expand_setupKey, fun _ => expand_crypt, fun _ h => if_neg (Nat.not_le.mpr h),
    fun _ h => if_neg (Nat.not_le.mpr h)⟩

end Sys2Proof.Machine
end

section
/-! PROOFS. The statements about steps and runs: one access a step, in order, to the end (20_memory.md R60 to R62,
70_reset_and_hazards.md R255), the reset state (R242), and the engines of a platform (00_scope.md R10). -/

namespace Sys2Proof.Machine

/-! ## Performing a program -/

/-- The access is a read, so one value returns to its host. -/
def Access.isRead : Access → Bool
  | .write _ _ _ => false
  | .read _ _ _ => true
  | .resetInput => false

/-- A supported program answers next, leaves what is pending as it is, and returns one value for each read. -/
theorem performAll_next {p : List HostEvent} (hp : ∀ ev ∈ p, ev.access.supported = true) (s : State) :
    ∃ e' rs, performAll p s = .next ⟨e', s.pending, s.reads ++ rs⟩ ∧ rs.length = p.countP (·.access.isRead) := by
  induction p generalizing s with
  | nil => exact ⟨s.eng, [], by rw [List.append_nil]; rfl, rfl⟩
  | cons ev p ih =>
    obtain ⟨hev, hrest⟩ := List.forall_mem_cons.mp hp
    obtain ⟨e₁, rs₁, h₁, hlen₁, -⟩ := performEvent_next ev hev s.eng
    obtain ⟨e', rs, h, hlen⟩ := ih hrest ⟨e₁, s.pending, s.reads ++ rs₁⟩
    have hread : rs₁.length = if ev.access.isRead then 1 else 0 := by
      rw [hlen₁]
      cases ev.access <;> rfl
    refine ⟨e', rs₁ ++ rs, ?_, by rw [List.length_append, List.countP_cons, hread, hlen, Nat.add_comm]⟩
    rw [performAll, h₁ s rfl, andThen_next, h, List.append_assoc]

/-- A run over the pending accesses performs them in order: a step performs the oldest, whatever else is pending, and both sides
stop where an access is refused (R61). -/
theorem core_run_pending (s : State) :
    Host.Core.run Sys2Proof.core s.pending.length s = performAll s.pending (s.withPending []) := by
  obtain ⟨e, p, r⟩ := s
  induction p generalizing e r with
  | nil => rfl
  | cons ev p ih =>
    rw [List.length_cons, core_run_succ, step_cons rfl, performAll]
    cases hs : ev.access.supported with
    | true =>
      obtain ⟨e', rs, h, -, -⟩ := performEvent_next ev hs e
      rw [h _ rfl, h _ rfl]
      exact ih e' (r ++ rs)
    | false =>
      obtain ⟨bytes, off, h⟩ := performEvent_unsupported ev hs
      rw [h, h]
      rfl

/-- The word of RESET puts the reset engine in place, whoever writes it. -/
theorem performEvent_commandEvent_reset (s : State) :
    performEvent (commandEvent 0x00000001) s = .next (s.withEng Engine.reset) :=
  (performEvent_write_encode (i := .reset) rfl 0 s).trans (execReset_eq s)

/-! ## The statements -/

/-- Settles O20: the step performs the CMD write, which executes the command that its word decodes to. -/
theorem stepRunsTheDecodedCommand : Obligations.StepRunsTheDecodedCommand :=
  fun s h v rest _ hp hd =>
    ((step_cons hp).trans (performEvent_write_offset h v (s.withPending rest) .cmd)).trans (execute_of_instr hd _)

/-- Settles O21: `core_run_pending`, by induction on the pending accesses. -/
theorem runPerformsAccessesInOrder : Obligations.RunPerformsAccessesInOrder := core_run_pending

/-- Settles O22: the run is `performAll`, which a supported program takes to its end. -/
theorem supportedProgramsEnd : Obligations.SupportedProgramsEnd := by
  intro s hs
  obtain ⟨e', rs, h, hlen⟩ := performAll_next (List.all_eq_true.mp hs) (s.withPending [])
  refine ⟨_, (core_run_pending s).trans h, rfl, ?_, step_nil rfl⟩
  rw [List.length_append, hlen]
  refine congrArg (s.reads.length + ·) (List.countP_congr fun ev _ => ?_)
  cases ev.access <;> exact Iff.rfl

/-- Settles O23: the access taken off is the oldest of its host, and a value it reads goes to that host alone. -/
theorem stepKeepsEachHostsOrder : Obligations.StepKeepsEachHostsOrder := by
  intro s s' ev rest hp h
  rw [step_cons hp] at h
  obtain ⟨e', rs, he', -, hhost⟩ := performEvent_next ev (supported_of_performEvent h) s.eng
  rw [he' (s.withPending rest) rfl] at h
  cases h
  refine ⟨by simp [State.programOf, hp], fun x hx => ⟨by simp [State.programOf, hp, hx.symm], ?_⟩⟩
  have hnone : rs.filter (·.host == x) = [] :=
    List.filter_eq_nil_iff.mpr fun r hr => by simp [hhost r hr, hx.symm]
  simp [State.readsOf, hnone]

/-- Settles O53: by induction on the engines, the first whose window holds the address performs the access. -/
theorem enginesAreIndependent : Obligations.EnginesAreIndependent := by
  intro p
  induction p with
  | nil => exact fun _ _ _ _ h => nomatch h
  | cons engine rest ih =>
    obtain ⟨base, s⟩ := engine
    intro p' host addr a h
    rw [Platform.access] at h
    split at h
    · next hw =>
      obtain ⟨s', hs', heq⟩ := andThen_eq_next h
      cases heq
      obtain ⟨hlo, hhi⟩ := of_decide_eq_true hw
      exact ⟨[], rest, base, s, s', rfl, rfl, hlo, hhi, hs'⟩
    · obtain ⟨rest', hrest', heq⟩ := andThen_eq_next h
      cases heq
      obtain ⟨before, after, base', t, t', rfl, rfl, hw⟩ := ih rest' host addr a hrest'
      exact ⟨(base, s) :: before, after, base', t, t', rfl, rfl, hw⟩

/-- Settles O2: RESET makes the state that of power-on, and the rest is the same program from the same state. -/
theorem resetIsolatesSessions : Obligations.ResetIsolatesSessions := by
  intro s P
  rw [performAll, performEvent_commandEvent_reset, andThen_next]
  rfl

/-- Settles O55: the two host fields are empty by definition, and a step with nothing pending keeps the state. -/
theorem nothingIsPendingAtReset : Obligations.NothingIsPendingAtReset := ⟨rfl, rfl, step_nil rfl⟩

end Sys2Proof.Machine
end

section
/-! PROOFS. The statements about ERR, KEY and DATA (10_state.md section 3, 60_exceptions.md R217), about what SETUP_KEY's session
depends on (41_key_schedule.md), and about repeated accesses and pseudo-instructions (20_memory.md R59, 30_encoding.md R90). -/

namespace Sys2Proof.Machine

/-! ## Errors -/

/-- A command succeeds with ERR = 0, or raises an error and writes nothing but ERR. -/
theorem exec_precise {i : Instr} {s s' : State} (h : exec i s = .next s') :
    s'.eng.ERR = 0 ∨ s' = s.withEng (s.eng.withERR s'.eng.ERR) := by
  obtain ⟨-, he⟩ | ⟨n, -, -, he⟩ | ⟨n, -, -, he⟩ | ⟨-, -, he⟩ | ⟨-, -, he⟩ | ⟨n, -, -, he⟩ | ⟨n, -, -, -, he⟩ |
    ⟨n, -, -, -, he⟩ | ⟨n, -, -, -, -, he⟩ := exec_cases i s <;> rw [he] at h <;> cases h
  -- the commands that succeed: RESET, SETUP_KEY, NEXT_BLOCK, CRYPT 0 and CRYPT n
  case inl => exact .inl rfl
  case inr.inr.inl => exact .inl rfl
  case inr.inr.inr.inl => exact .inl rfl
  case inr.inr.inr.inr.inr.inr.inr.inl => exact .inl rfl
  case inr.inr.inr.inr.inr.inr.inr.inr => exact .inl rfl
  all_goals exact .inr rfl

/-! ## KEY and DATA -/

/-- What a command does to KEY and DATA: only RESET and a SETUP_KEY that succeeds change KEY, only RESET and a CRYPT on a ready
engine change DATA. -/
theorem exec_interface_cases {i : Instr} {s s' : State} (h : exec i s = .next s') :
    i = .reset ∨
    (endsSession i = true ∧ s'.eng.DATA = s.eng.DATA) ∨
    (∃ n B, i = .crypt n ∧ s.eng.ready = true ∧ s'.eng.KEY = s.eng.KEY ∧ s'.eng.DATA = xorCombine s.eng.DATA B n.toNat) ∨
    (s'.eng.KEY = s.eng.KEY ∧ s'.eng.DATA = s.eng.DATA) := by
  obtain ⟨hi, -⟩ | ⟨n, -, -, he⟩ | ⟨n, rfl, hn, he⟩ | ⟨-, -, he⟩ | ⟨-, -, he⟩ | ⟨n, -, -, he⟩ | ⟨n, -, -, -, he⟩ |
    ⟨n, -, -, -, he⟩ | ⟨n, hi, -, -, hr, he⟩ := exec_cases i s
  case inl => exact .inl hi
  all_goals
    rw [he] at h
    cases h
  -- a SETUP_KEY that succeeds, a CRYPT that draws a block, and the rest
  case inr.inr.inl => exact .inr (.inl ⟨decide_eq_true hn, rfl⟩)
  case inr.inr.inr.inr.inr.inr.inr.inr => exact .inr (.inr (.inl ⟨n, _, hi, hr, rfl, rfl⟩))
  all_goals exact .inr (.inr (.inr ⟨rfl, rfl⟩))

theorem getElem_xorCombine_of_le {n j : Nat} (D S : Bytes) (hj : j < 16) (hn : n ≤ j) : (xorCombine D S n)[j] = D[j] := by
  rw [getElem_xorCombine, if_neg (Nat.not_lt.mpr hn)]

theorem getElem_putLanes_of_ne {w : Fin 4} {j : Nat} (a : Bytes) (v : Word) (hj : j < 16) (hw : j / 4 ≠ w.val) :
    (putLanes a w v)[j] = a[j] := by
  rw [getElem_putLanes, if_neg hw]

theorem putLanes_putLanes (a : Bytes) (w : Fin 4) (v : Word) : putLanes (putLanes a w v) w v = putLanes a w v := by
  refine Vector.ext fun j hj => ?_
  simp only [getElem_putLanes]
  split <;> rfl

/-- Only the DATA registers are a view of DATA (20_memory.md R56). -/
theorem regRead_withDATA {r : WinReg} (e : Engine) (a : Bytes) (hr : ∀ w, r ≠ .data w) :
    regRead r (e.withDATA a) = regRead r e := by
  cases r with
  | data w => exact absurd rfl (hr w)
  | cmd => rfl
  | status => rfl
  | reserved _ => rfl
  | key _ => rfl
  | ks _ => rfl

/-! ## Pseudo-instructions -/

theorem performAll_cons (ev : HostEvent) (p : List HostEvent) :
    performAll (ev :: p) = fun s => andThen (performEvent ev s) (performAll p) := rfl

theorem andThen_performAll_nil (o : Result) : andThen o (performAll []) = o := by
  cases o <;> rfl

section
variable (reg : Fin 4 → WinReg) (h : Nat) (s : State)

/-- The four writes of LDKEY and LDDATA are the protocols' `writeArray` (R90). -/
theorem performAll_writes (a : Bytes) :
    performAll ((asmFour fun w => .write 4 (reg w).offset (getLanes a w)).map fun x => ⟨h, x⟩) s = writeArray reg a s := by
  simp only [asmFour, List.map_cons, List.map_nil, performAll_cons, performEvent_write_offset, andThen_performAll_nil,
    writeArray]

/-- The four reads of RDKS and RDDATA return the four registers in order, and change no more (R90). -/
theorem performAll_reads (x : Fin 4 → Option Word) :
    performAll ((asmFour fun w => .read 4 (reg w).offset (x w)).map fun x => ⟨h, x⟩) s =
      .next { s with
        reads := s.reads ++ (List.finRange 4).map fun w => ⟨h, (reg w).offset, regRead (reg w) s.eng, x w⟩ } := by
  have hfour : List.finRange 4 = [0, 1, 2, 3] := rfl
  simp only [asmFour, List.map_cons, List.map_nil, performAll_cons, performEvent_read_offset, andThen_next,
    State.withRead_eng, hfour]
  simp [performAll, State.withRead]

end

/-! ## The statements -/

/-- Settles O19: an illegal word raises ERR = 3 and nothing else, and a command is `exec_precise`. -/
theorem errorsArePrecise : Obligations.ErrorsArePrecise := by
  intro v s s' h herr
  obtain hv | hv := Bool.eq_false_or_eq_true (legal v)
  · obtain ⟨i, hi, rfl⟩ := (legal_iff_exists_encode v).mp hv
    rw [execute_of_instr (decode_encode_of_wf hi)] at h
    exact (exec_precise h).resolve_left herr
  · rw [execute_of_illegal hv] at h
    cases h
    rfl

/-- Settles O28: the cases of `performEvent_cases`, a command's own being `exec_interface_cases`. -/
theorem whatChangesTheInterfaceState : Obligations.WhatChangesTheInterfaceState := by
  intro ev s s' h
  obtain ⟨ha, -⟩ | ⟨v, i, ha, -, hc, hx⟩ | ⟨v, ha, -, -, he⟩ | ⟨w, v, ha, -, he⟩ | ⟨w, v, ha, -, he⟩ | ⟨-, he⟩ :=
    performEvent_cases h
  · exact ⟨fun _ => .inl ha, fun _ => .inl ha, fun _ _ => .inl ha⟩
  · refine ⟨fun _ => .inr ⟨v, ha⟩, ?_⟩
    obtain rfl | ⟨hends, hD⟩ | ⟨n, B, rfl, hr, hK, hD⟩ | ⟨hK, hD⟩ := exec_interface_cases hx
    · exact ⟨fun _ => .inr (.inr ⟨_, hc, rfl⟩), fun _ _ => .inr (.inr (.inl hc))⟩
    · exact ⟨fun _ => .inr (.inr ⟨i, hc, hends⟩), by simp [hD]⟩
    · refine ⟨by simp [hK], fun j hne => .inr (.inr (.inr ⟨n, hc, ?_, hr⟩))⟩
      by_contra hj
      exact hne (by rw [hD]; exact getElem_xorCombine_of_le _ _ j.isLt (Nat.not_lt.mp hj))
    · simp [hK, hD]
  · exact ⟨fun _ => .inr ⟨v, ha⟩, by simp [he], by simp [he]⟩
  · exact ⟨by simp [he], fun _ => .inr (.inl ⟨w, v, ha⟩), by simp [he]⟩
  · refine ⟨by simp [he], by simp [he], fun j hne => .inr (.inl ⟨v, ?_⟩)⟩
    have hw : j.val / 4 = w.val := by
      by_contra hw
      exact hne (by rw [he]; exact getElem_putLanes_of_ne _ _ j.isLt hw)
    rw [ha, hw]
  · simp [he]

/-- Settles O32: `getLanes_putLanes` for the DATA registers; every other register is no view of DATA. -/
theorem dataReadsBackWhatWasWritten : Obligations.DataReadsBackWhatWasWritten := by
  intro s w v
  refine ⟨_, rfl, (getLanes_putLanes s.eng.DATA w w v).trans (if_pos rfl), fun r hr => ?_⟩
  by_cases hdata : ∃ w', r = .data w'
  · obtain ⟨w', rfl⟩ := hdata
    exact (getLanes_putLanes s.eng.DATA w w' v).trans (if_neg fun hw => hr (congrArg WinReg.data hw))
  · exact regRead_withDATA s.eng _ (not_exists.mp hdata)

/-- Settles O52: LDKEY and LDDATA are `writeArray`, and the four words that RDKS checks determine S. -/
theorem pseudoInstructionsMoveSixteenBytes : Obligations.PseudoInstructionsMoveSixteenBytes := by
  intro a s h
  refine ⟨⟨_, rfl, (performAll_writes .key h s a).trans (writeArray_key a s)⟩,
    ⟨_, rfl, (performAll_writes .data h s a).trans (writeArray_data a s)⟩,
    ⟨_, _, rfl, performAll_reads .ks h _ fun w => some (getLanes a w), rfl, ?_⟩⟩
  have hchecks : (∀ w : Fin 4, getLanes a w = getLanes s.eng.S w) ↔ s.eng.S = a :=
    ⟨fun hw => (getLanes_injective a s.eng.S hw).symm, fun hS _ => by rw [hS]⟩
  rw [← hchecks]
  simp [State.checksHold, regRead]

/-- Settles O6: SETUP_KEY puts the schedule of KEY in place, whatever stood there. -/
theorem sessionDependsOnKeyAlone : Obligations.SessionDependsOnKeyAlone := by
  intro n m s t hn hm hkey
  refine ⟨_, _, execSetupKey_long hn s, execSetupKey_long hm t, ?_⟩
  simp [hkey]

/-- Settles O7: the first SETUP_KEY clears KEY, which is what the second one's schedule reads. -/
theorem secondSetupUsesZeroKey : Obligations.SecondSetupUsesZeroKey :=
  fun _ _ s hn hm => ⟨_, _, execSetupKey_long hn s, execSetupKey_long hm _, rfl, rfl, rfl⟩

/-- Settles O35: a read leaves the engine as it was, a register write overwrites the same bytes, and a NEXT_BLOCK leaves the
engine ready for another step. -/
theorem repeatedAccesses : Obligations.RepeatedAccesses := by
  refine ⟨fun s s' h off x hev => ?read, fun s w v => ⟨?key, ?data⟩, fun s hr => ?nextBlock⟩
  case read =>
    obtain ⟨r, hreg⟩ := Option.isSome_iff_exists.mp (supported_of_performEvent hev)
    rw [performEvent_read h x s hreg] at hev
    cases hev
    exact ⟨rfl, _, rfl, performEvent_read h x _ hreg⟩
  case key => simp [regWrite, putLanes_putLanes]
  case data => simp [regWrite, putLanes_putLanes]
  case nextBlock =>
    have hcmd : ∀ t, regWrite .cmd 0x00000003 t = execNextBlock t :=
      execute_of_instr (decode_encode_of_wf (i := .nextBlock) rfl)
    rw [hcmd, execNextBlock_ready hr, andThen_next, hcmd]
    exact ⟨_, execNextBlock_ready hr, rfl⟩

/-- Settles O36: STATUS shows ready and ERR, DATAw and KSw show DATA and S, every other register reads zero. -/
theorem readsHideTheSessionAndKey : Obligations.ReadsHideTheSessionAndKey := by
  intro r e e' hS hD hr hE
  cases r with
  | status => simp only [regRead, statusWord, hr, hE]
  | data w => simp only [regRead, hD]
  | ks w => simp only [regRead, hS]
  | cmd => rfl
  | reserved _ => rfl
  | key _ => rfl

end Sys2Proof.Machine
end

section
/-! PROOFS. The derived statements about the datapath units and the key load: the counter's carry chain (40_datapath.md R101, R102),
the corner cases of g (R104), the S[6..7] lane (R109), and the load written out (41_key_schedule.md R142). -/

namespace Sys2Proof.Machine

/-! ## The carry chain -/

/-- No counter constant is so large that adding it and a carry goes all the way round, and none is zero. -/
theorem counterConst_bounds (i : Fin 8) : 0 < counterConst[i].toNat ∧ counterConst[i].toNat + 1 < 2 ^ 32 := by
  fin_cases i <;> decide

/-- A word carries out exactly when the new word is less than the old one: what was added is more than 0 and less than 2^32. -/
theorem carryInto_succ_eq_one_iff (C : Words) (b : Bit) (i : Fin 8) :
    (carryInto C b (i.val + 1)).toNat = 1 ↔ (counterUpdate C b).1[i].toNat < C[i].toNat := by
  have hsum := counterUpdate_word C b i.val i.isLt
  have hA := counterConst_bounds i
  have hin := (carryInto C b i.val).isLt
  have hout := (carryInto C b (i.val + 1)).isLt
  simp only [Fin.getElem_fin] at hA ⊢
  omega

/-! ## The g-function -/

theorem gFunction_eq_sum (u v : Word) : gFunction u v = gFunction (u + v) 0 := by
  simp only [gFunction, BitVec.ofNat_eq_ofNat, BitVec.add_zero]

/-! ## The S[6..7] lane -/

theorem extractLsb'_ushiftRight_16 (x : Word) : (x >>> 16).extractLsb' 0 16 = hi16 x := by
  ext i hi
  simp [hi16, BitVec.getElem_extractLsb', BitVec.getLsbD_ushiftRight]

/-- The sign bits that the arithmetic shifter brings in lie above the 16 bits that are kept. -/
theorem extractLsb'_sshiftRight_16 (x : Word) : (x.sshiftRight 16).extractLsb' 0 16 = hi16 x := by
  ext i hi
  simp [hi16, BitVec.getElem_extractLsb', BitVec.getElem_sshiftRight, show i < 32 by omega, show 16 + i < 32 by omega]

/-! ## The sub-keys -/

/-- A sub-key is its two key bytes, the byte at the odd index high (R142). -/
theorem subKey_eq (KEY : Bytes) (i : Nat) : subKey KEY i = KEY[2 * (i % 8) + 1] ++ KEY[2 * (i % 8)] := by
  refine BitVec.eq_of_getLsbD_eq fun j hj => ?_
  simp only [subKey, BitVec.getLsbD_append, BitVec.getLsbD_or, BitVec.getLsbD_shiftLeft, BitVec.getLsbD_setWidth]
  by_cases h8 : j < 8
  · simp [h8, hj]
  · simp [h8, hj, show j - 8 < 16 by omega, BitVec.getLsbD_of_ge KEY[2 * (i % 8)] j (by omega)]

/-- The eight sub-keys, each as its two key bytes. -/
theorem ofFn_subKey (KEY : Bytes) :
    (Vector.ofFn fun i : Fin 8 => subKey KEY i.val) =
      #v[KEY[1] ++ KEY[0], KEY[3] ++ KEY[2], KEY[5] ++ KEY[4], KEY[7] ++ KEY[6],
         KEY[9] ++ KEY[8], KEY[11] ++ KEY[10], KEY[13] ++ KEY[12], KEY[15] ++ KEY[14]] := by
  refine Vector.ext fun i hi => ?_
  rw [Vector.getElem_ofFn, subKey_eq]
  interval_cases i <;> rfl

section
variable {KEY : Bytes} {K : Vector Half 8} (hK : K = Vector.ofFn fun i : Fin 8 => subKey KEY i.val)
include hK

theorem keyLoadX_eq :
    keyLoadX KEY =
      #v[K[1] ++ K[0], K[6] ++ K[5], K[3] ++ K[2], K[0] ++ K[7], K[5] ++ K[4], K[2] ++ K[1], K[7] ++ K[6], K[4] ++ K[3]] := by
  subst hK
  refine Vector.ext fun i hi => ?_
  simp only [keyLoadX, Vector.getElem_ofFn]
  interval_cases i <;> rfl

theorem keyLoadC_eq :
    keyLoadC KEY =
      #v[K[4] ++ K[5], K[1] ++ K[2], K[6] ++ K[7], K[3] ++ K[4], K[0] ++ K[1], K[5] ++ K[6], K[2] ++ K[3], K[7] ++ K[0]] := by
  subst hK
  refine Vector.ext fun i hi => ?_
  simp only [keyLoadC, Vector.getElem_ofFn]
  interval_cases i <;> rfl

end

/-! ## The statements -/

/-- Settles O37: the eight exact word sums, weighted by their places, add up with the inner carries cancelling. -/
theorem counterUpdateIsWideAddition : Obligations.CounterUpdateIsWideAddition := by
  intro C b value A
  have hword := counterUpdate_word C b
  have h0 := hword 0 (by decide)
  have h1 := hword 1 (by decide)
  have h2 := hword 2 (by decide)
  have h3 := hword 3 (by decide)
  have h4 := hword 4 (by decide)
  have h5 := hword 5 (by decide)
  have h6 := hword 6 (by decide)
  have h7 := hword 7 (by decide)
  simp only [Nat.zero_add, Nat.reduceAdd, carryInto_zero] at h0 h1 h2 h3 h4 h5 h6 h7
  rw [counterUpdate_snd, show A = counterConst from rfl]
  simp only [value]
  omega

/-- Settles O38: the carries of the chain, each one bit, with `counterUpdate_word` for the sum. -/
theorem wordCarriesExactlyWhenItShrinks : Obligations.WordCarriesExactlyWhenItShrinks :=
  fun C b => ⟨fun i => (carryInto C b i).toNat, rfl, rfl, fun i =>
    ⟨Nat.le_of_lt_succ (carryInto C b (i.val + 1)).isLt, counterUpdate_word C b i.val i.isLt,
      carryInto_succ_eq_one_iff C b i⟩⟩

/-- Settles O54: g reads its operands through their sum, so a sum that wraps to zero gives g(0, 0). -/
theorem gCornerCases : Obligations.GCornerCases := by
  have hzero : gFunction 0 0 = 0 := by decide
  refine ⟨gFunction_eq_sum, fun u => ?wraps, hzero, by decide, by decide, by decide, by decide, by decide, by decide⟩
  case wraps =>
    rw [gFunction_eq_sum, BitVec.add_right_neg]
    exact hzero

/-- Settles O43: either shifter's low half is hi16(X2), which is what the model combines. -/
theorem eitherShifterGivesTheSameLane : Obligations.EitherShifterGivesTheSameLane := by
  intro X
  rw [BitVec.extractLsb'_xor, BitVec.extractLsb'_xor, extractLsb'_sshiftRight_16, extractLsb'_ushiftRight_16]
  exact ⟨rfl, rfl⟩

/-- Settles O4: word by word, with the sub-keys as bytes by `subKey_eq` and the indices reduced modulo 8. -/
theorem keyLoadWrittenOut : Obligations.KeyLoadWrittenOut := by
  intro KEY K
  have hK : K = Vector.ofFn fun i : Fin 8 => subKey KEY i.val := (ofFn_subKey KEY).symm
  exact ⟨keyLoadX_eq hK, keyLoadC_eq hK⟩

end Sys2Proof.Machine
end

section
/-! PROOFS. The statements about the host protocols `crypt` and `nextBlock` (42_keystream.md R171, R173) and what follows of `crypt`
alone: that it undoes itself (R164) and may be split at whole blocks (R174). -/

namespace Sys2Proof.Machine

/-! ## The keystream of a session -/

/-- Byte i of the keystream of a session: its blocks, one step each, laid end to end (R161). -/
def keystream (r : Session) (i : Nat) : Byte := (block (iterateStep (i / 16 + 1) r).X)[i % 16]

/-- A message combined with the keystream of a session, byte by byte. -/
def encipher (r : Session) (m : List Byte) : List Byte := m.mapIdx fun i x => x ^^^ keystream r i

theorem keystream_lt_sixteen (r : Session) {i : Nat} (hi : i < 16) : keystream r i = (block (updateStep r).X)[i] := by
  simp only [keystream, Nat.div_eq_of_lt hi, Nat.mod_eq_of_lt hi]
  rfl

/-- Stepping the session k times skips k blocks of its keystream. -/
theorem keystream_iterateStep (r : Session) (k i : Nat) : keystream (iterateStep k r) i = keystream r (i + 16 * k) := by
  have hdiv : (i + 16 * k) / 16 + 1 = k + (i / 16 + 1) := by omega
  simp only [keystream, hdiv, iterateStep_add, Nat.add_mul_mod_self_left]

theorem length_encipher (r : Session) (m : List Byte) : (encipher r m).length = m.length := List.length_mapIdx

theorem getElem?_encipher (r : Session) {m : List Byte} {i : Nat} (hi : i < m.length) :
    (encipher r m)[i]? = some (m[i] ^^^ keystream r i) := by
  simp [encipher, hi]

theorem encipher_encipher (r : Session) (m : List Byte) : encipher r (encipher r m) = m := by
  refine List.ext_getElem (by simp [length_encipher]) fun i _ _ => ?_
  simp only [encipher, List.getElem_mapIdx, BitVec.xor_assoc, BitVec.xor_self, BitVec.xor_zero]

/-- After k whole blocks the rest of the message meets the keystream of the session stepped k times. -/
theorem encipher_append (r : Session) {m₁ : List Byte} {k : Nat} (hk : m₁.length = 16 * k) (m₂ : List Byte) :
    encipher r (m₁ ++ m₂) = encipher r m₁ ++ encipher (iterateStep k r) m₂ := by
  simp only [encipher, List.mapIdx_append, keystream_iterateStep, hk]

/-- A message is its first chunk and the rest, which starts at the next block. -/
theorem encipher_take_drop (r : Session) (m : List Byte) :
    encipher r m = encipher r (m.take 16) ++ encipher (updateStep r) (m.drop 16) := by
  obtain hm | hm := Nat.lt_or_ge m.length 16
  · rw [List.take_of_length_le hm.le, List.drop_eq_nil_of_le hm.le]
    exact (List.append_nil _).symm
  · have hlen : (m.take 16).length = 16 * 1 := by simp [hm]
    have happ := encipher_append r hlen (m.drop 16)
    rwa [List.take_append_drop] at happ

/-- The bytes of one CRYPT, read back from DATA: what stands after the chunk's end is dropped. -/
theorem take_xorCombine_chunkBytes (fill : Nat → Byte) {chunk : List Byte} (hlen : chunk.length ≤ 16) (r : Session) :
    (xorCombine (chunkBytes fill chunk) (block (updateStep r).X) chunk.length).toList.take chunk.length =
      encipher r chunk := by
  refine List.ext_getElem (by simp [length_encipher, hlen]) fun i _ hi => ?_
  rw [length_encipher] at hi
  have hi16 : i < 16 := by omega
  simp [encipher, keystream_lt_sixteen r hi16, getElem_xorCombine, hi, chunkBytes]

/-! ## One chunk -/

theorem lenOfNat_toNat {n : Nat} (h : n ≤ 16) : (BitVec.ofNat 5 n).toNat = n := by
  rw [BitVec.toNat_ofNat]
  omega

theorem hostCommand_crypt {n : BitVec 5} (h : n.toNat ≤ 16) (s : State) : hostCommand (.crypt n) s = execCrypt n s :=
  hostCommand_eq _ (decode_encode_of_wf (i := .crypt n) (decide_eq_true h)) s

/-- CRYPT with n >= 1 on a ready engine, field by field. -/
theorem execCrypt_next {n : BitVec 5} {s : State} (h1 : 1 ≤ n.toNat) (hn : n.toNat ≤ 16) (hr : s.eng.ready = true) :
    ∃ t, execCrypt n s = .next t ∧ t.eng.ready = true ∧ t.eng.ERR = 0 ∧ t.eng.session = updateStep s.eng.session ∧
      t.eng.DATA = xorCombine s.eng.DATA (block (updateStep s.eng.session).X) n.toNat :=
  ⟨_, execCrypt_pos h1 hn hr, hr, rfl, rfl, rfl⟩

theorem ready_withDATA {s : State} {r : Bool} (D : Bytes) (hr : s.eng.ready = r) :
    (s.withEng (s.eng.withDATA D)).eng.ready = r := hr

section
variable (fill : Nat → Byte) {chunk : List Byte} {s : State}

/-- On a ready engine a chunk is enciphered, and the session is stepped once. -/
theorem hostCryptChunk_ready (hr : s.eng.ready = true) (h1 : 1 ≤ chunk.length) (hlen : chunk.length ≤ 16) :
    ∃ s', hostCryptChunk fill chunk s = .next (0, encipher s.eng.session chunk, s') ∧
      s'.eng.ready = true ∧ s'.eng.ERR = 0 ∧ s'.eng.session = updateStep s.eng.session := by
  have hn := lenOfNat_toNat hlen
  obtain ⟨t, hx, hr', herr, hsession, hdata⟩ :=
    execCrypt_next (h1.trans_eq hn.symm) (hn.le.trans hlen) (ready_withDATA (chunkBytes fill chunk) hr)
  rw [hn] at hdata
  simp only [State.withEng_eng, Engine.withDATA_session, Engine.withDATA_DATA] at hsession hdata
  refine ⟨t, ?_, hr', herr, hsession⟩
  rw [hostCryptChunk, writeArray_data, andThen_next, hostCommand_crypt (hn.le.trans hlen), hx, andThen_next, readERR_eq,
    if_neg (by simp [herr]), readArray_data, hdata, take_xorCombine_chunkBytes fill hlen]

/-- On an engine that is not ready a chunk answers ERR = 2 and its own bytes, which were only loaded into DATA. -/
theorem hostCryptChunk_not_ready (hr : s.eng.ready = false) (hlen : chunk.length ≤ 16) :
    hostCryptChunk fill chunk s = .next (2, chunk, s.withEng ((s.eng.withDATA (chunkBytes fill chunk)).withERR 2)) := by
  have hn := lenOfNat_toNat hlen
  rw [hostCryptChunk, writeArray_data, andThen_next, hostCommand_crypt (hn.le.trans hlen),
    execCrypt_not_ready (hn.le.trans hlen) (ready_withDATA _ hr), andThen_next, readERR_eq, if_pos (by simp)]
  simp only [State.withEng_eng, State.withEng_withEng, Engine.withERR_ERR]

end

/-! ## The whole message -/

/-- A non-empty message has a first chunk, and the rest has one chunk less. -/
theorem chunks_of_ne_nil {m : List Byte} {k : Nat} (hk : k + 1 = (m.length + 15) / 16) :
    1 ≤ (m.take 16).length ∧ (m.take 16).length ≤ 16 ∧ k = ((m.drop 16).length + 15) / 16 := by
  simp only [List.length_take, List.length_drop]
  omega

/-- The loop of `crypt` on a ready engine, by induction on the chunks that are left. -/
theorem hostCryptLoop_ready (fill : Nat → Nat → Byte) {k : Nat} (c : Nat) {m : List Byte} {s : State} (hr : s.eng.ready = true)
    (hk : k = (m.length + 15) / 16) (herr : k = 0 → s.eng.ERR = 0) :
    ∃ s', hostCryptLoop fill k c m s = .next (0, encipher s.eng.session m, s') ∧
      s'.eng.ready = true ∧ s'.eng.ERR = 0 ∧ s'.eng.session = iterateStep k s.eng.session := by
  induction k generalizing c m s with
  | zero =>
    have hm : m = [] := List.eq_nil_of_length_eq_zero (by omega)
    subst hm
    exact ⟨s, rfl, hr, herr rfl, rfl⟩
  | succ k ih =>
    obtain ⟨h1, h16, hrest⟩ := chunks_of_ne_nil hk
    obtain ⟨s₁, hchunk, hr₁, herr₁, hx₁⟩ := hostCryptChunk_ready (fill c) hr h1 h16
    obtain ⟨s', hloop, hr', herr', hx'⟩ := ih (c + 1) hr₁ hrest fun _ => herr₁
    refine ⟨s', ?_, hr', herr', by rw [hx', hx₁]; rfl⟩
    rw [hostCryptLoop, hchunk, andThen_next, if_neg (by simp), hloop, andThen_next, hx₁, ← encipher_take_drop]

theorem hostCrypt_ready (fill : Nat → Nat → Byte) (m : List Byte) {s : State} (hr : s.eng.ready = true) :
    ∃ s', hostCrypt fill m s = .next (0, encipher s.eng.session m, s') ∧
      s'.eng.ready = true ∧ s'.eng.ERR = 0 ∧ s'.eng.session = iterateStep ((m.length + 15) / 16) s.eng.session := by
  by_cases hm : m.length = 0
  · obtain rfl := List.eq_nil_of_length_eq_zero hm
    refine ⟨s.withEng (s.eng.withERR 0), ?_, hr, rfl, rfl⟩
    rw [hostCrypt, if_pos hm, hostCommand_crypt (n := 0) (by decide), execCrypt_zero rfl hr, andThen_next, readERR_eq]
    rfl
  · rw [hostCrypt, if_neg hm]
    exact hostCryptLoop_ready fill 0 hr rfl (by omega)

/-- On an engine that is not ready `crypt` stops at its first command: the message is unchanged, and the engine differs in ERR
and, for a message that is not empty, in DATA, where the first chunk was loaded. -/
theorem hostCrypt_not_ready (fill : Nat → Nat → Byte) (m : List Byte) {s : State} (hr : s.eng.ready = false) :
    hostCrypt fill m s =
      .next (2, m, s.withEng ((s.eng.withDATA (if m = [] then s.eng.DATA else chunkBytes (fill 0) (m.take 16))).withERR 2)) := by
  by_cases hm : m = []
  · subst hm
    rw [hostCrypt, if_pos List.length_nil, hostCommand_crypt (n := 0) (by decide), execCrypt_not_ready (by decide) hr, andThen_next,
      readERR_eq]
    rfl
  · obtain ⟨k, hk⟩ : ∃ k, (m.length + 15) / 16 = k + 1 :=
      Nat.exists_eq_succ_of_ne_zero (by have := List.length_pos_of_ne_nil hm; omega)
    have h16 : (m.take 16).length ≤ 16 := List.length_take_le 16 m
    rw [hostCrypt, if_neg (mt List.eq_nil_of_length_eq_zero hm), hk, hostCryptLoop, hostCryptChunk_not_ready (fill 0) hr h16,
      andThen_next, if_pos (by simp), List.take_append_drop, if_neg hm]

/-- `nextBlock` runs NEXT_BLOCK and answers the ERR and the S that it left. -/
theorem hostNextBlock_eq_exec (s : State) :
    hostNextBlock s = andThen (execNextBlock s) fun t => .next (t.eng.ERR, t.eng.S, t) := by
  have hcmd : hostCommand .nextBlock s = execNextBlock s := hostCommand_eq _ (decode_encode_of_wf (i := .nextBlock) rfl) s
  simp only [hostNextBlock, hcmd, readERR_eq, readArray_ks]

/-- Where the invariant holds, an engine that is not ready has S = 0 (10_state.md R37). -/
theorem Engine.S_of_not_ready {e : Engine} (hr : e.ready = false) (hi : e.inv = true) : e.S = Vector.replicate 16 0 := by
  simp only [Engine.inv, hr, Bool.false_or, Bool.and_eq_true, beq_iff_eq] at hi
  exact hi.2

/-! ## The statements -/

/-- Settles O46: `hostCrypt_ready`, with the enciphered message read byte by byte. -/
theorem hostCryptCombinesTheKeystream : Obligations.HostCryptCombinesTheKeystream := by
  intro fill m s hr
  obtain ⟨s', h, hr', herr', hx'⟩ := hostCrypt_ready fill m hr
  exact ⟨_, s', h, length_encipher _ m, fun i hi => getElem?_encipher _ hi, hr', herr', hx'⟩

/-- Settles O47: `hostCrypt_not_ready`, which holds after RESET as RESET clears ready. -/
theorem hostCryptFailsUntilSetup : Obligations.HostCryptFailsUntilSetup := by
  refine ⟨fun fill m s hr => ⟨_, hostCrypt_not_ready fill m hr, rfl, fun hm => if_pos hm⟩, fun fill m s => ?afterReset⟩
  case afterReset =>
    have hreset : hostReset s = .next (s.withEng Engine.reset) :=
      (hostCommand_eq _ (decode_encode_of_wf (i := .reset) rfl) s).trans (execReset_eq s)
    exact ⟨_, _, hreset, hostCrypt_not_ready fill m rfl⟩

/-- Settles O48: both calls combine with the same keystream, and that undoes itself. -/
theorem decryptionUndoesEncryption : Obligations.DecryptionUndoesEncryption := by
  intro fill fill' m s t hs ht hx
  obtain ⟨s', hcs, -, -, hxs⟩ := hostCrypt_ready fill m hs
  obtain ⟨t', hct, -, -, hxt⟩ := hostCrypt_ready fill' (encipher s.eng.session m) ht
  rw [hx, encipher_encipher] at hct
  exact ⟨_, s', t', hcs, hct, by rw [hxt, hxs, hx, length_encipher]⟩

/-- Settles O49: the first call leaves the session at the block where the second part of the message starts. -/
theorem splittingAtBlocksChangesNothing : Obligations.SplittingAtBlocksChangesNothing := by
  intro fill m₁ m₂ s hr hmod
  obtain ⟨s₁, h₁, hr₁, -, hx₁⟩ := hostCrypt_ready fill m₁ hr
  obtain ⟨s₂, h₂, -, -, hx₂⟩ := hostCrypt_ready fill m₂ hr₁
  obtain ⟨s', h', -, -, hx'⟩ := hostCrypt_ready fill (m₁ ++ m₂) hr
  have hlen : m₁.length = 16 * ((m₁.length + 15) / 16) := by omega
  have hsteps : ((m₁ ++ m₂).length + 15) / 16 = (m₁.length + 15) / 16 + (m₂.length + 15) / 16 := by
    rw [List.length_append]
    omega
  rw [encipher_append _ hlen, ← hx₁] at h'
  exact ⟨_, _, s₁, s₂, s', h₁, h₂, h', by rw [hx', hx₂, hx₁, hsteps, iterateStep_add]⟩

/-- Settles O50: the answer is S, which is the block drawn, or zero where the engine is not ready and the invariant holds. -/
theorem hostNextBlockOutcomes : Obligations.HostNextBlockOutcomes := by
  refine fun s => ⟨fun hr => ?ready, fun hr hi => ?notReady⟩
  case ready => exact ⟨_, by rw [hostNextBlock_eq_exec, execNextBlock_ready hr]; rfl⟩
  case notReady =>
    rw [hostNextBlock_eq_exec, execNextBlock_not_ready hr, ← Engine.S_of_not_ready hr hi]
    rfl

end Sys2Proof.Machine
end
